-- ==== Sys2Proof/Word.lean ====
section
/-!
DEFINITION. The data formats at the block's boundary (spec 00_scope.md R10, R13; 30_encoding.md R49 to R52).

Everything is numbered from the least significant end: bit 0 of a value, line 0 of the input, cell 0 of the output and
segment `a` of a pattern come first.
-/

namespace Sys2Proof

/-- A 12-bit operation word: the tag in bits 11 to 8, the operands in bits 7 to 0 (R54). -/
abbrev OpWord := BitVec 12

/-- A segment pattern: bit 0 is segment a, bit 6 is segment g, 1 is lit (R52). -/
abbrev Pattern := BitVec 7

/-- One bit of the output cache: 0, 1, or not yet available (R12, R18). -/
inductive Cell where
  | zero
  | one
  | na
  deriving DecidableEq, Repr

/-- Four cells, `b0` least significant (R51). -/
structure Nibble where
  b0 : Cell
  b1 : Cell
  b2 : Cell
  b3 : Cell
  deriving DecidableEq, Repr

/-- The 12 cells in the fixed order ones, tens, hundreds (R50): cell `4p + i` is bit `i` of field `p`. -/
structure Cache where
  ones : Nibble
  tens : Nibble
  hundreds : Nibble
  deriving DecidableEq, Repr

/-- A position of the display; its index `p` is 0, 1, 2 in this order (R13). -/
inductive Position where
  | ones
  | tens
  | hundreds
  deriving DecidableEq, Repr

/-- The value the host supplies on one input line: a string of bits, bit 0 first, as many as the line is wide; or no 0/1
value at all (R16, R54, R100). -/
inductive LineValue where
  | undefined
  | bits (lsbFirst : List Bool)
  deriving DecidableEq, Repr

/-- The operand of EVAL and IN_ASSEMBLE (R54). The word form holds bit 0 of each line, every line defined and every upper
bit 0; the general term holds the line values themselves, line 0 first. -/
inductive LineOperand where
  | word (v : BitVec 8)
  | lines (ls : List LineValue)
  deriving DecidableEq, Repr

/-- Three decimal digits as naturals (R64). -/
structure Digits where
  ones : Nat
  tens : Nat
  hundreds : Nat
  deriving DecidableEq, Repr

/-- Why a 12-bit word names no operation (R58). -/
inductive DecodeError where
  /-- The tag is 0x9 to 0xF. -/
  | reservedTag (tag : Nat)
  /-- A bit is 1 where the tag's layout shows 0. -/
  | nonzeroPadding (tag : Nat)
  /-- A cell of a NIB_DEC word has the code 11. -/
  | illegalCellCode
  deriving DecidableEq, Repr

end Sys2Proof
end

