-- ==== Sys2Proof/Config.lean ====
section
/-!
DEFINITION. The fixed parameters of this hardware (spec 00_scope.md R7) and the one value the model names for reset.

No operation of the spec leaves a value undefined, so there is no free value here.
-/

namespace Sys2Proof.Config

/-- The number of input lines (R7). -/
def nIn : Nat := 8

/-- The number of digit positions (R7). -/
def nDigits : Nat := 3

/-- The width of a digit's nibble (R7). -/
def nibW : Nat := 4

/-- The number of output lines (R7). -/
def nOut : Nat := 12

/-- The number of segments of one position (R7). -/
def nSeg : Nat := 7

/-- The number of entries of the lookup table (R7). -/
def lutEntries : Nat := 10

/-- The largest input value (R7). -/
def vMax : Nat := 255

/-- The W_LINE of the instance that `State.reset` holds. DESIGN CHOICE (unsafe, log entry 3): the spec leaves W_LINE an
open parameter (R8, D4); every statement about the machine holds for every W_LINE. -/
def resetWLine : Nat := 1

end Sys2Proof.Config
end

