-- ==== Sys2Proof/Syntax.lean ====
section
/-!
DEFINITION. The operations the host may request (spec 30_encoding.md R54), one constructor for each row of
spec/opcode_table.json.

Numeric operands are naturals, so that an operand outside its stated width can be written down and is refused, as R59
asks, and not cut short.
-/

namespace Sys2Proof

/-- One operation term. -/
inductive Instr where
  /-- INIT: construct a fresh instance (R85). -/
  | init
  /-- EVAL: read the 8 lines, write the 12 cells (R86). -/
  | eval (inp : LineOperand)
  /-- RENDER: the segment patterns of the three positions (R89). -/
  | render
  /-- IN_ASSEMBLE: the value of the 8 lines (R63). -/
  | inAssemble (inp : LineOperand)
  /-- CONVERT: the three digits of an 8-bit value (R64). -/
  | convert (v : Nat)
  /-- SEG_LOOKUP: the pattern of a 4-bit digit code (R74). -/
  | segLookup (d : Nat)
  /-- SEG_TEST: whether segment `s` (3 bits) is lit for the digit code `d` (4 bits) (R75). -/
  | segTest (s : Nat) (d : Nat)
  /-- NIB_ENC: the four bits of a 4-bit digit code (R78). -/
  | nibEnc (d : Nat)
  /-- NIB_DEC: the digit of four cells (R79). -/
  | nibDec (b : Nibble)
  deriving DecidableEq, Repr

end Sys2Proof
end

