-- ==== Sys2Proof/Machine/State.lean ====
section
/-!
DEFINITION. The machine's state as plain data (spec 10_state.md R15 to R33), the reasons a step can stop, and reset.
-/

namespace Sys2Proof.Machine

open Sys2Proof

/-- The four faults of the block (R97). -/
inductive FaultCode where
  /-- A digit code 10 to 15 at the segment decoder (R98). -/
  | digitRange
  /-- Segment index 7 at SEG_TEST (R99). -/
  | segIndexRange
  /-- An input line without a 0/1 value (R100). -/
  | inputUndefined
  /-- An input line with a 1 above bit 0 (R101). -/
  | inputUpperBits
  deriving DecidableEq, Repr

/-- What a fault records: its code and its info (R97, R102). -/
structure FaultRecord where
  code : FaultCode
  info : Nat
  deriving DecidableEq, Repr

/-- Why the machine has no step. -/
inductive Fault where
  /-- Raised by every operation but INIT addressed to an instance whose fault field is set: "no operation has a step on it"
  (R102; 93_implementation_defined.md #14, `stuck`). Safe: the spec gives no step either. -/
  | quiescent (f : FaultRecord)
  deriving DecidableEq, Repr

/-- Why an operation has no meaning (R104). A refusal ends the run for good, which is the spec's refusal mark (log entry 7). -/
inductive Refusal where
  /-- Raised by an arm of `exec` whose instruction has no meaning yet; no arm is left so. Safe. -/
  | notModelled (mnemonic : String)
  /-- Raised by `step` for a word that names no operation (R58, R104 (a)). Safe: the spec refuses it. -/
  | illegalWord (e : DecodeError)
  /-- Raised by every operation with an operand outside its stated width (R59, R104 (b)). Safe: the spec refuses it. -/
  | operandWidth
  /-- Raised by INIT: W_LINE below 1, or a connected input of another width (R85, R104 (c)). Safe: the spec refuses it. -/
  | configWidth
  /-- Raised by every operation but INIT addressed to an instance that has not been constructed (R104 (d), R119).
  Safe: the spec refuses it. -/
  | unconstructed (target : Nat)
  deriving DecidableEq, Repr

/-- One display instance: everything it owns (R18, R23, R24, R30). -/
structure Instance where
  /-- The output cache (R18); the output lines carry it at all times (R19). -/
  cache : Cache
  /-- The fault field: none, or what the one fault it ever took recorded (R24, R102). -/
  fault : Option FaultRecord
  /-- The width of each of its input lines, fixed at construction (R8, R23). -/
  wLine : Nat
  deriving DecidableEq, Repr

/-- What the host presents with a construction (R85, R110, R118): the configured W_LINE, and for each input line the width
of what is connected to it, if anything is (log entry 14). -/
structure Wiring where
  wLine : Nat
  in0 : Option Nat
  in1 : Option Nat
  in2 : Option Nat
  in3 : Option Nat
  in4 : Option Nat
  in5 : Option Nat
  in6 : Option Nat
  in7 : Option Nat
  deriving DecidableEq, Repr

/-- What an operation returns to the host (R54's result column, R95, R110). -/
inductive Result where
  /-- INIT: the fresh instance, by its place in the order of construction (log entry 16). -/
  | constructed (index : Nat)
  /-- RENDER: the patterns of ones, tens and hundreds (R89). -/
  | patterns (ones tens hundreds : Pattern)
  /-- IN_ASSEMBLE: the 8-bit value (R63). -/
  | value (v : BitVec 8)
  /-- CONVERT: three digits of 4 bits (R64). -/
  | digits (ones tens hundreds : BitVec 4)
  /-- SEG_LOOKUP: a pattern (R74). -/
  | pattern (p : Pattern)
  /-- SEG_TEST: 1 is lit (R75). -/
  | lit (b : Bool)
  /-- NIB_ENC: four bits (R78). -/
  | nibble (b : Nibble)
  /-- NIB_DEC: a 4-bit number (R79). -/
  | digit (d : BitVec 4)
  deriving DecidableEq, Repr

/-- How a request names its operation: as a 12-bit word, or as a term (R54: only a term can spell every line value). -/
inductive Operation where
  | word (w : OpWord)
  | term (i : Instr)
  deriving DecidableEq, Repr

/-- One request of the host (R84, R110): the operation, the instance it is addressed to, and the wiring presented with it,
which only INIT reads. -/
structure Request where
  target : Nat
  wiring : Wiring
  op : Operation
  deriving DecidableEq, Repr

/-- The lookup-table ROM as pairs of an address and a 7-bit entry, in one canonical form; an unlisted address 0 to 9 reads
as the constant table's entry (R26, R34, R72; log entry 4). -/
abbrev Memory := List (Nat × Pattern)

/-- The whole machine. -/
structure State where
  /-- The global ROM (R26). -/
  lut : Memory
  /-- Every instance constructed so far, the oldest first (R111). -/
  instances : List Instance
  /-- The host's pending requests, the oldest first (R84; log entry 1). -/
  requests : List Request
  /-- The instance the operation in progress is addressed to (R32). -/
  target : Nat
  /-- The wiring presented with the operation in progress (R85). -/
  wiring : Wiring
  /-- What the last operation returned to the host; none if it returned nothing (R12, R95; log entry 5). -/
  returned : Option Result
  deriving DecidableEq, Repr

/-- A nibble of unavailable cells (R31). -/
def Nibble.unavailable : Nibble := ⟨.na, .na, .na, .na⟩

/-- The cache right after construction (R31, R85). -/
def Cache.unavailable : Cache := ⟨Nibble.unavailable, Nibble.unavailable, Nibble.unavailable⟩

/-- A freshly constructed instance (R31, R85). -/
def Instance.fresh (wLine : Nat) : Instance := ⟨Cache.unavailable, none, wLine⟩

/-- Every line connected with the configured width. -/
def Wiring.uniform (w : Nat) : Wiring :=
  ⟨w, some w, some w, some w, some w, some w, some w, some w, some w⟩

/-- Before any construction: the LUT exists, no instance does (R116, R118, R119). -/
def State.beforeInit (wLine : Nat) : State :=
  ⟨[], [], [], 0, Wiring.uniform wLine, none⟩

/-- Right after an instance with lines of `wLine` bits is constructed, which is its reset (R31, R115). -/
def State.resetWith (wLine : Nat) : State :=
  ⟨[], [Instance.fresh wLine], [], 0, Wiring.uniform wLine, none⟩

/-- The machine right after reset (R115). The one value the spec leaves to the host, W_LINE, is `Config.resetWLine`. -/
def State.reset : State := State.resetWith Config.resetWLine

end Sys2Proof.Machine
end

