-- ==== Sys2Proof/Machine/Ops.lean ====
section
/-!
DEFINITION. The named operations over the ROM, the cache and the state that every meaning is built from, taking a fault
among them (spec 10_state.md, 20_memory.md, 60_exceptions.md).
-/

namespace Sys2Proof.Machine

open Sys2Proof

/-! ### The ROM -/

/-- The constant table (R72), read with the leftmost character of each source string as bit 6 (R53); entry 8 equals entry 0
(R73). No entry exists above 9 (R41, R76). -/
def lutEntry : Nat → Option Pattern
  | 0 => some 0b0111111
  | 1 => some 0b0000110
  | 2 => some 0b1011011
  | 3 => some 0b1001111
  | 4 => some 0b1100110
  | 5 => some 0b1101101
  | 6 => some 0b1111101
  | 7 => some 0b0000111
  | 8 => some 0b0111111
  | 9 => some 0b1101111
  | _ => none

/-- What the list holds at an address. -/
def listedEntry (d : Nat) : Memory → Option Pattern
  | [] => none
  | c :: m => if c.1 = d then some c.2 else listedEntry d m

/-- The entry at an address, if the address is mapped (R34, R41). -/
def Memory.read (m : Memory) (d : Nat) : Option Pattern :=
  match lutEntry d with
  | none => none
  | some e => some ((listedEntry d m).getD e)

/-- A pair may be listed: its address is mapped and its entry differs from what the address reads as unlisted. -/
def listable (c : Nat × Pattern) : Bool :=
  match lutEntry c.1 with
  | none => false
  | some e => decide (c.2 ≠ e)

/-- The canonical form: addresses strictly rising, every pair listable. -/
def Memory.wf : Memory → Bool
  | [] => true
  | [c] => listable c
  | c :: d :: m => listable c && decide (c.1 < d.1) && Memory.wf (d :: m)

/-- `MemRead(d, 1)`: the whole entry, or the fault for an address above 9 (R35). -/
def memRead (m : Memory) (d : Nat) : Except FaultRecord Pattern :=
  match m.read d with
  | some e => .ok e
  | none => .error ⟨.digitRange, d⟩

/-! ### The cache and the lines -/

/-- A bit as a cache cell. -/
def cellOfBit (b : Bool) : Cell := if b then .one else .zero

/-- The number a cell stands for, if it is available. -/
def bitOfCell : Cell → Option Nat
  | .zero => some 0
  | .one => some 1
  | .na => none

/-- The cells of a nibble, least significant first. -/
def nibbleCells (n : Nibble) : List Cell := [n.b0, n.b1, n.b2, n.b3]

/-- `cache[0..11]` in order (R50). -/
def cacheCells (c : Cache) : List Cell :=
  nibbleCells c.ones ++ nibbleCells c.tens ++ nibbleCells c.hundreds

/-- Field `p` of the cache: cells `4p` to `4p + 3` (R50). -/
def cacheField (c : Cache) : Position → Nibble
  | .ones => c.ones
  | .tens => c.tens
  | .hundreds => c.hundreds

/-- What output line `OUT[k]` carries, for `k` in 0..11: the cell `cache[k]` (R19). -/
def outputLine (inst : Instance) (k : Nat) : Option Cell := (cacheCells inst.cache)[k]?

/-- Available cells read as a binary number, the first least significant; none if one is unavailable. -/
def numberOfCells : List Cell → Option Nat
  | [] => some 0
  | c :: cs =>
    match bitOfCell c, numberOfCells cs with
    | some b, some n => some (b + 2 * n)
    | _, _ => none

/-- `OUT[11:0]` as a number; none if a line is not yet available (R50). -/
def outputWord (inst : Instance) : Option Nat := numberOfCells (cacheCells inst.cache)

/-- The number of a fault code (R97). -/
def faultNumber : FaultCode → Nat
  | .digitRange => 1
  | .segIndexRange => 2
  | .inputUndefined => 3
  | .inputUpperBits => 4

/-! ### The state -/

/-- The instance the operation is addressed to, if it has been constructed. -/
def State.addressed (s : State) : Option Instance := s.instances[s.target]?

/-- The addressed instance replaced; every other one kept (R30). -/
def State.withAddressed (s : State) (inst : Instance) : State :=
  { s with instances := s.instances.set s.target inst }

/-- The operation ends and returns `r` to the host (R12). -/
def State.answer (s : State) (r : Result) : State :=
  { s with returned := some r }

/-- All 12 cells of the addressed instance written at once; nothing is returned (R39, R86). -/
def State.writeCache (s : State) (inst : Instance) (c : Cache) : State :=
  { s.withAddressed { inst with cache := c } with returned := none }

/-- Taking a fault (R102): the record goes into the addressed instance's fault field, nothing else of the block is written
and no result is returned. There is no return from a fault (R103). -/
def State.raiseFault (s : State) (inst : Instance) (f : FaultRecord) : State :=
  { s.withAddressed { inst with fault := some f } with returned := none }

/-- A fresh instance beside the others; the host gets it back (R85, R110, R111). -/
def State.construct (s : State) (wLine : Nat) : State :=
  { s with
    instances := s.instances ++ [Instance.fresh wLine]
    returned := some (.constructed s.instances.length) }

/-- The widths of what is connected to the input lines. -/
def connectedWidths (w : Wiring) : List Nat :=
  [w.in0, w.in1, w.in2, w.in3, w.in4, w.in5, w.in6, w.in7].filterMap id

/-- The configuration may be constructed: W_LINE is at least 1 and every connected input has that width (R85). -/
def wiringOk (w : Wiring) : Bool :=
  decide (1 ≤ w.wLine) && (connectedWidths w).all fun n => n == w.wLine

/-- The next outcome type of every meaning. -/
abbrev Next := Host.Outcome State Fault Refusal

/-- Every operation but INIT begins so: it is refused on an instance that is not constructed (R119) and with an operand
outside its width (R59), and has no step on a faulted instance (R102). A refusal comes first (R105); which of two refusals
is named is the model's choice (log entry 8). -/
def onAddressed (widthsOk : Instance → Bool) (s : State) (body : Instance → Next) : Next :=
  match s.addressed with
  | none => .refused (.unconstructed s.target)
  | some inst =>
    if widthsOk inst then
      match inst.fault with
      | some f => .fault (.quiescent f)
      | none => body inst
    else .refused .operandWidth

/-- How an operation that only computes ends: with its result, or by taking its fault (R40, R96). -/
def finish (s : State) (inst : Instance) : Except FaultRecord Result → Next
  | .ok r => .next (s.answer r)
  | .error f => .next (s.raiseFault inst f)

/-- The request is taken off the list and its target and wiring are presented. -/
def State.present (s : State) (r : Request) (rest : List Request) : State :=
  { s with requests := rest, target := r.target, wiring := r.wiring }

end Sys2Proof.Machine
end

