-- ==== Sys2Proof/Machine/Operands.lean ====
section
/-!
DEFINITION. The operand forms (spec 30_encoding.md R54, R55, R59; 40_bcd_converter.md R63): the 8 input lines in their word
form and as a general term, and the widths of the numeric operands.
-/

namespace Sys2Proof.Machine

open Sys2Proof

/-- A numeric operand of `w` bits holds the number (R59). -/
def fits (w n : Nat) : Bool := decide (n < 2 ^ w)

/-- A line value is undefined or exactly `wLine` bits wide (R54, R59). -/
def lineFits (wLine : Nat) : LineValue → Bool
  | .undefined => true
  | .bits bs => decide (bs.length = wLine)

/-- The operand is in word form, or is a list of 8 lines of the instance's width (R59). -/
def linesFit (inp : LineOperand) (inst : Instance) : Bool :=
  match inp with
  | .word _ => true
  | .lines ls => decide (ls.length = 8) && ls.all (lineFits inst.wLine)

/-- A line whose bit 0 is `b`, `wLine` bits wide, its upper bits 0. -/
def narrowLine (wLine : Nat) (b : Bool) : LineValue :=
  .bits (b :: List.replicate (wLine - 1) false)

/-- The 8 line values an operand stands for, line 0 first. The word form gives bit 0 of each line, every line defined and
every upper bit 0 (R54; log entry 9). -/
def lineValues (wLine : Nat) : LineOperand → List LineValue
  | .word v => (List.range 8).map fun i => narrowLine wLine (v.getLsbD i)
  | .lines ls => ls

/-- The line has no 0/1 value (R100). -/
def lineUndefined : LineValue → Bool
  | .undefined => true
  | .bits _ => false

/-- `in[i][W_LINE-1:1] != 0`: a bit above bit 0 is 1 (R101). -/
def lineUpperSet : LineValue → Bool
  | .undefined => false
  | .bits [] => false
  | .bits (_ :: upper) => upper.any id

/-- `in[i][0]` as a number. -/
def lineBit : LineValue → Nat
  | .bits (true :: _) => 1
  | _ => 0

/-- The sum of `in[i][0] << i` over the lines (R63). -/
def lineSum : List LineValue → Nat
  | [] => 0
  | l :: ls => lineBit l + 2 * lineSum ls

/-- `IN_ASSEMBLE` on line values (R63): every line is checked for a missing value, the lowest first, before any line is
checked for a set upper bit, the lowest first (R105). -/
def assemble (ls : List LineValue) : Except FaultRecord Nat :=
  match ls.findIdx? lineUndefined with
  | some i => .error ⟨.inputUndefined, i⟩
  | none =>
    match ls.findIdx? lineUpperSet with
    | some i => .error ⟨.inputUpperBits, i⟩
    | none => .ok (lineSum ls)

/-- `IN_ASSEMBLE` on an operand read by an instance (R63). -/
def assembleOperand (inp : LineOperand) (inst : Instance) : Except FaultRecord Nat :=
  assemble (lineValues inst.wLine inp)

end Sys2Proof.Machine
end

