-- ==== Sys2Proof/Machine/Bcd.lean ====
section
/-!
DEFINITION. BCDConverter: IN_ASSEMBLE and CONVERT (spec 40_bcd_converter.md).
-/

namespace Sys2Proof.Machine

open Sys2Proof

/-- The divide-by-ten, modulo-ten tree (R64), on any natural (R66: it keeps the low three decimal digits). -/
def convert (v : Nat) : Digits :=
  let q1 := v / 10
  let q2 := q1 / 10
  ⟨v % 10, q1 % 10, q2 % 10⟩

/-- Three digits as a result, each carried in 4 bits (R13, R64). -/
def digitsResult (d : Digits) : Result :=
  .digits (BitVec.ofNat 4 d.ones) (BitVec.ofNat 4 d.tens) (BitVec.ofNat 4 d.hundreds)

/-- IN_ASSEMBLE (R63). -/
def execInAssemble (inp : LineOperand) (s : State) : Next :=
  onAddressed (linesFit inp) s fun inst =>
    finish s inst ((assembleOperand inp inst).map fun v => .value (BitVec.ofNat 8 v))

/-- CONVERT (R64). -/
def execConvert (v : Nat) (s : State) : Next :=
  onAddressed (fun _ => fits 8 v) s fun inst =>
    finish s inst (.ok (digitsResult (convert v)))

end Sys2Proof.Machine
end

