-- ==== Sys2Proof/Machine/Packing.lean ====
section
/-!
DEFINITION. The bit-packing boundary: NIB_ENC and NIB_DEC, PACK and UNPACK (spec 42_bit_packing.md).
-/

namespace Sys2Proof.Machine

open Sys2Proof

/-- Bit `i` of a digit, `(d >> i) & 1`, as a cell (R78). -/
def digitCell (d i : Nat) : Cell := cellOfBit (decide (d / 2 ^ i % 2 = 1))

/-- The four bits of a digit, least significant first (R78). -/
def nibEnc (d : Nat) : Nibble := ⟨digitCell d 0, digitCell d 1, digitCell d 2, digitCell d 3⟩

/-- The digit of four cells; one unavailable cell makes the whole digit 0 (R79). -/
def nibDec (b : Nibble) : Nat := (numberOfCells (nibbleCells b)).getD 0

/-- `PACK`: the three nibbles in the order ones, tens, hundreds (R81). -/
def pack (d : Digits) : Cache := ⟨nibEnc d.ones, nibEnc d.tens, nibEnc d.hundreds⟩

/-- `UNPACK`: each nibble decoded on its own (R82). -/
def unpack (c : Cache) : Digits := ⟨nibDec c.ones, nibDec c.tens, nibDec c.hundreds⟩

/-- The digit of a position, derived from the cache (R27). -/
def instanceDigit (inst : Instance) (p : Position) : Nat := nibDec (cacheField inst.cache p)

/-- NIB_ENC (R78). -/
def execNibEnc (d : Nat) (s : State) : Next :=
  onAddressed (fun _ => fits 4 d) s fun inst =>
    finish s inst (.ok (.nibble (nibEnc d)))

/-- NIB_DEC (R79). -/
def execNibDec (b : Nibble) (s : State) : Next :=
  onAddressed (fun _ => true) s fun inst =>
    finish s inst (.ok (.digit (BitVec.ofNat 4 (nibDec b))))

end Sys2Proof.Machine
end

