-- ==== Sys2Proof/Machine/Segment.lean ====
section
/-!
DEFINITION. SegmentDecoder: SEG_LOOKUP and SEG_TEST (spec 41_segment_decoder.md).
-/

namespace Sys2Proof.Machine

open Sys2Proof

/-- The pattern of a digit; a code above 9 faults (R74, R76). -/
def segLookup (m : Memory) (d : Nat) : Except FaultRecord Pattern :=
  if 9 < d then .error ⟨.digitRange, d⟩ else memRead m d

/-- Bit `s` of the pattern of a digit; the digit is checked before the segment index (R75, R105). -/
def segTest (m : Memory) (s d : Nat) : Except FaultRecord Bool :=
  if 9 < d then .error ⟨.digitRange, d⟩
  else if 6 < s then .error ⟨.segIndexRange, s⟩
  else (memRead m d).map fun p => p.getLsbD s

/-- SEG_LOOKUP (R74). -/
def execSegLookup (d : Nat) (s : State) : Next :=
  onAddressed (fun _ => fits 4 d) s fun inst =>
    finish s inst ((segLookup s.lut d).map .pattern)

/-- SEG_TEST (R75). -/
def execSegTest (seg d : Nat) (s : State) : Next :=
  onAddressed (fun _ => fits 3 seg && fits 4 d) s fun inst =>
    finish s inst ((segTest s.lut seg d).map .lit)

end Sys2Proof.Machine
end

