-- ==== Sys2Proof/Machine/Block.lean ====
section
/-!
DEFINITION. The block operations: INIT, EVAL and RENDER (spec 43_block_operations.md).
-/

namespace Sys2Proof.Machine

open Sys2Proof

/-- The signal `SEG[p][s]`, derived from the cache (R28). -/
def segmentSignal (m : Memory) (inst : Instance) (p : Position) (s : Nat) : Except FaultRecord Bool :=
  segTest m s (instanceDigit inst p)

/-- The three patterns of a cache: every position is checked, the lowest first, before any is looked up; the record's info
is the position (R89, R105). -/
def renderPatterns (m : Memory) (c : Cache) : Except FaultRecord Result :=
  if 9 < (unpack c).ones then .error ⟨.digitRange, 0⟩
  else if 9 < (unpack c).tens then .error ⟨.digitRange, 1⟩
  else if 9 < (unpack c).hundreds then .error ⟨.digitRange, 2⟩
  else
    match segLookup m (unpack c).ones, segLookup m (unpack c).tens, segLookup m (unpack c).hundreds with
    | .ok p0, .ok p1, .ok p2 => .ok (.patterns p0 p1 p2)
    | .error f, _, _ => .error f
    | _, .error f, _ => .error f
    | _, _, .error f => .error f

/-- INIT (R85): a fresh instance, or the refusal CONFIG_WIDTH. It addresses no instance and touches none (R103). -/
def execInit (s : State) : Next :=
  if wiringOk s.wiring then .next (s.construct s.wiring.wLine) else .refused .configWidth

/-- EVAL (R86): the conversion of the 8 lines into the 12 cells, in one step. -/
def execEval (inp : LineOperand) (s : State) : Next :=
  onAddressed (linesFit inp) s fun inst =>
    match assembleOperand inp inst with
    | .ok v => .next (s.writeCache inst (pack (convert v)))
    | .error f => .next (s.raiseFault inst f)

/-- RENDER (R89): the patterns of the three positions; it changes no state of the block. -/
def execRender (s : State) : Next :=
  onAddressed (fun _ => true) s fun inst => finish s inst (renderPatterns s.lut inst.cache)

end Sys2Proof.Machine
end

