-- ==== Sys2Proof/Machine/Flags.lean ====
section
/-!
DEFINITION. The flags: there are none (spec 10_state.md R22: "No operation sets or reads a status flag"). The one thing an
operation records beside its result is a fault, and `State.raiseFault` of Machine/Ops.lean is that (R24, R102).
-/

namespace Sys2Proof.Machine

/-- The names of the status flags: an empty list (R22). -/
def flagNames : List String := []

end Sys2Proof.Machine
end

