-- ==== Sys2Proof/Machine/Dispatch.lean ====
section
/-!
DEFINITION. One arm for each operation of spec/opcode_table.json, each a direct call of its meaning.
-/

namespace Sys2Proof.Machine

open Sys2Proof

def exec (i : Instr) (s : State) : Host.Outcome State Fault Refusal :=
  match i with
  | .init => Sys2Proof.Machine.execInit s
  | .eval inp => Sys2Proof.Machine.execEval inp s
  | .render => Sys2Proof.Machine.execRender s
  | .inAssemble inp => Sys2Proof.Machine.execInAssemble inp s
  | .convert v => Sys2Proof.Machine.execConvert v s
  | .segLookup d => Sys2Proof.Machine.execSegLookup d s
  | .segTest seg d => Sys2Proof.Machine.execSegTest seg d s
  | .nibEnc d => Sys2Proof.Machine.execNibEnc d s
  | .nibDec b => Sys2Proof.Machine.execNibDec b s

end Sys2Proof.Machine
end

