-- ==== Sys2Proof/WellFormed.lean ====
section
/-!
DEFINITION. Which operation terms are well formed (spec 30_encoding.md R55, R59): every operand has its stated width.

The check is the spec's list of rejections, written on the syntax alone; that the machine refuses exactly these terms is
one of the obligations.
-/

namespace Sys2Proof

/-- A line value is undefined or has exactly `wLine` bits (R54, R59). -/
def LineValue.wellFormed (wLine : Nat) : LineValue → Bool
  | .undefined => true
  | .bits bs => bs.length == wLine

/-- The word form always has its width; a general term has 8 lines of `wLine` bits each (R59). -/
def LineOperand.wellFormed (wLine : Nat) : LineOperand → Bool
  | .word _ => true
  | .lines ls => ls.length == 8 && ls.all (LineValue.wellFormed wLine)

/-- Every operand of the term has the width R54 gives it, on an instance whose lines are `wLine` bits wide. -/
def Instr.wellFormed (wLine : Nat) : Instr → Bool
  | .init => true
  | .eval inp => inp.wellFormed wLine
  | .render => true
  | .inAssemble inp => inp.wellFormed wLine
  | .convert v => decide (v < 256)
  | .segLookup d => decide (d < 16)
  | .segTest s d => decide (s < 8) && decide (d < 16)
  | .nibEnc d => decide (d < 16)
  | .nibDec _ => true

/-- The term can be carried as an operation word: R54 gives a general term of line values none. -/
def Instr.hasWord : Instr → Bool
  | .init => true
  | .eval (.word _) => true
  | .eval (.lines _) => false
  | .render => true
  | .inAssemble (.word _) => true
  | .inAssemble (.lines _) => false
  | .convert _ => true
  | .segLookup _ => true
  | .segTest _ _ => true
  | .nibEnc _ => true
  | .nibDec _ => true

end Sys2Proof
end

