-- ==== Sys2Proof/Decode.lean ====
section
/-!
DEFINITION. Operation words (spec 30_encoding.md R54, R58, R60) and the textual spelling of operations (R61).

`decode` is total on the 12-bit words and rejects by name; `encode` is written from the same table. The word numbers carry
no hardware meaning (92_eei_decisions.md D2).
-/

namespace Sys2Proof

/-- Bits `lo + len - 1` down to `lo` of a word, as a number (R10). -/
def fieldOf (w : OpWord) (lo len : Nat) : Nat :=
  w.toNat / 2 ^ lo % 2 ^ len

/-- The 2-bit code of a cell: 00 is 0, 01 is 1, 10 is na; 11 is no cell (R54, R58). -/
def cellOfCode : Nat → Option Cell
  | 0 => some .zero
  | 1 => some .one
  | 2 => some .na
  | _ => none

/-- The code of a cell (R54). -/
def codeOfCell : Cell → Nat
  | .zero => 0
  | .one => 1
  | .na => 2

/-- The operand of a NIB_DEC word: `b[3]` in bits 7 to 6 down to `b[0]` in bits 1 to 0 (R54). -/
def decodeCells (w : OpWord) : Option Nibble :=
  match cellOfCode (fieldOf w 0 2), cellOfCode (fieldOf w 2 2), cellOfCode (fieldOf w 4 2), cellOfCode (fieldOf w 6 2) with
  | some b0, some b1, some b2, some b3 => some ⟨b0, b1, b2, b3⟩
  | _, _, _, _ => none

/-- The instruction, if the `len` bits from `lo` up are 0; a word with a 1 there is refused (R58). -/
def withPadding (w : OpWord) (lo len : Nat) (i : Instr) : Except DecodeError Instr :=
  if fieldOf w lo len = 0 then .ok i else .error (.nonzeroPadding (fieldOf w 8 4))

/-- The operation a word names (R54). -/
def decode (w : OpWord) : Except DecodeError Instr :=
  match fieldOf w 8 4 with
  | 0x0 => withPadding w 0 8 .init
  | 0x1 => .ok (.eval (.word (w.setWidth 8)))
  | 0x2 => withPadding w 0 8 .render
  | 0x3 => .ok (.inAssemble (.word (w.setWidth 8)))
  | 0x4 => .ok (.convert (fieldOf w 0 8))
  | 0x5 => withPadding w 4 4 (.segLookup (fieldOf w 0 4))
  | 0x6 => withPadding w 7 1 (.segTest (fieldOf w 4 3) (fieldOf w 0 4))
  | 0x7 => withPadding w 4 4 (.nibEnc (fieldOf w 0 4))
  | 0x8 =>
    match decodeCells w with
    | some b => .ok (.nibDec b)
    | none => .error .illegalCellCode
  | tag => .error (.reservedTag tag)

/-- The instruction the decoder reads from a word numbered as spec/opcode_table.json numbers it. A row has 12 bits; the
bits above them in whole bytes belong to no word (log entry 13). -/
def decodeTableWord (nbits w : Nat) : Option Instr :=
  match decode (BitVec.ofNat 12 (w % 2 ^ nbits)) with
  | .ok i => some i
  | .error _ => none

/-- A word from its tag and its operand field (R54). -/
def wordOf (tag operands : Nat) : OpWord :=
  BitVec.ofNat 12 (tag * 256 + operands)

/-- The number a cell's code adds to a NIB_DEC word's operand field (R54). -/
def encodeCells (b : Nibble) : Nat :=
  codeOfCell b.b3 * 64 + codeOfCell b.b2 * 16 + codeOfCell b.b1 * 4 + codeOfCell b.b0

/-- The word of a term; none for a general term of line values and for an operand outside its width (R54, R59). -/
def encode : Instr → Option OpWord
  | .init => some (wordOf 0x0 0)
  | .eval (.word v) => some (wordOf 0x1 v.toNat)
  | .eval (.lines _) => none
  | .render => some (wordOf 0x2 0)
  | .inAssemble (.word v) => some (wordOf 0x3 v.toNat)
  | .inAssemble (.lines _) => none
  | .convert v => if v < 256 then some (wordOf 0x4 v) else none
  | .segLookup d => if d < 16 then some (wordOf 0x5 d) else none
  | .segTest s d => if s < 8 ∧ d < 16 then some (wordOf 0x6 (s * 16 + d)) else none
  | .nibEnc d => if d < 16 then some (wordOf 0x7 d) else none
  | .nibDec b => some (wordOf 0x8 (encodeCells b))

/-! ### The textual syntax (R61)

One operation a line: a lowercase mnemonic, then the operands, blanks between them. A `;` begins a comment. -/

/-- The characters of a line up to its comment. -/
def dropComment : List Char → List Char
  | [] => []
  | c :: cs => if c = ';' then [] else c :: dropComment cs

/-- The words of a line (DESIGN CHOICE, safe, log entry 17): blanks part them, and a comma is a word of its own (an empty word stands where a blank or comma
ends one; `parseText` drops these). -/
def tokens : List Char → List (List Char)
  | [] => []
  | c :: cs =>
    if c = ' ' then [] :: tokens cs
    else if c = ',' then [] :: [','] :: tokens cs
    else match tokens cs with
      | [] => [[c]]
      | t :: ts => (c :: t) :: ts

/-- The value of a decimal digit character. -/
def decimalDigit (c : Char) : Option Nat :=
  if '0' ≤ c ∧ c ≤ '9' then some (c.toNat - '0'.toNat) else none

/-- A string of decimal digits read from the left, `acc` being what was read before. -/
def decimalFrom (acc : Nat) : List Char → Option Nat
  | [] => some acc
  | c :: cs =>
    match decimalDigit c with
    | some d => decimalFrom (acc * 10 + d) cs
    | none => none

/-- `#` and a decimal number below `bound`. Leading zeros are accepted, as many as there are: R61 gives the range of the
number and not its spelling (DESIGN CHOICE, safe, log entry 17). -/
def parseNumber (bound : Nat) : List Char → Option Nat
  | '#' :: c :: cs =>
    match decimalFrom 0 (c :: cs) with
    | some n => if n < bound then some n else none
    | none => none
  | _ => none

/-- Binary digits, the most significant first, `acc` being what was read before. -/
def binaryFrom (acc : Nat) : List Char → Option Nat
  | [] => some acc
  | '0' :: cs => binaryFrom (acc * 2) cs
  | '1' :: cs => binaryFrom (acc * 2 + 1) cs
  | _ => none

/-- Exactly 8 binary digits, line 7 first. -/
def parseLines (cs : List Char) : Option Nat :=
  if cs.length = 8 then binaryFrom 0 cs else none

/-- A segment, by its letter `a` to `g` or as `#0` to `#7`. -/
def parseSegment : List Char → Option Nat
  | ['a'] => some 0
  | ['b'] => some 1
  | ['c'] => some 2
  | ['d'] => some 3
  | ['e'] => some 4
  | ['f'] => some 5
  | ['g'] => some 6
  | cs => parseNumber 8 cs

/-- A cell: `0`, `1`, or `x` for na. -/
def parseCell : Char → Option Cell
  | '0' => some .zero
  | '1' => some .one
  | 'x' => some .na
  | _ => none

/-- Four cells, `b[3]` first. -/
def parseCells : List Char → Option Nibble
  | [c3, c2, c1, c0] =>
    match parseCell c3, parseCell c2, parseCell c1, parseCell c0 with
    | some b3, some b2, some b1, some b0 => some ⟨b0, b1, b2, b3⟩
    | _, _, _, _ => none
  | _ => none

/-- The operation spelled by a mnemonic and its operand words (R61). -/
def parseTokens (mnemonic : List Char) (operands : List (List Char)) : Option Instr :=
  if mnemonic = ['i', 'n', 'i', 't'] then
    if operands = [] then some .init else none
  else if mnemonic = ['e', 'v', 'a', 'l'] then
    match operands with
    | [t] => ((parseLines t).or (parseNumber 256 t)).map fun n => .eval (.word (BitVec.ofNat 8 n))
    | _ => none
  else if mnemonic = ['r', 'e', 'n', 'd', 'e', 'r'] then
    if operands = [] then some .render else none
  else if mnemonic = ['i', 'n', '_', 'a', 's', 's', 'e', 'm', 'b', 'l', 'e'] then
    match operands with
    | [t] => (parseLines t).map fun n => .inAssemble (.word (BitVec.ofNat 8 n))
    | _ => none
  else if mnemonic = ['c', 'o', 'n', 'v', 'e', 'r', 't'] then
    match operands with
    | [t] => (parseNumber 256 t).map .convert
    | _ => none
  else if mnemonic = ['s', 'e', 'g', '_', 'l', 'o', 'o', 'k', 'u', 'p'] then
    match operands with
    | [t] => (parseNumber 16 t).map .segLookup
    | _ => none
  else if mnemonic = ['s', 'e', 'g', '_', 't', 'e', 's', 't'] then
    match operands with
    | [t, [','], u] =>
      match parseSegment t, parseNumber 16 u with
      | some s, some d => some (.segTest s d)
      | _, _ => none
    | _ => none
  else if mnemonic = ['n', 'i', 'b', '_', 'e', 'n', 'c'] then
    match operands with
    | [t] => (parseNumber 16 t).map .nibEnc
    | _ => none
  else if mnemonic = ['n', 'i', 'b', '_', 'd', 'e', 'c'] then
    match operands with
    | [t] => (parseCells t).map .nibDec
    | _ => none
  else none

/-- The operation one line of text spells; none where R61 gives no such spelling. -/
def parseText (line : List Char) : Option Instr :=
  match (tokens (dropComment line)).filter fun t => decide (t ≠ []) with
  | [] => none
  | m :: ts => parseTokens m ts

end Sys2Proof
end

