-- ==== Sys2Proof/Machine/Fetch.lean ====
section
/-!
DEFINITION. How a request names its operation (spec 30_encoding.md R54). The block fetches nothing by itself (10_state.md
R21): an operation comes to it only as a request.
-/

namespace Sys2Proof.Machine

open Sys2Proof

/-- The operation a request asks for: its term, or what its word decodes to. -/
def fetch : Operation → Except DecodeError Instr
  | .term i => .ok i
  | .word w => decode w

/-- The request for a word, addressed to the current target with the current wiring. -/
def wordRequest (s : State) (nbits w : Nat) : Request :=
  ⟨s.target, s.wiring, .word (BitVec.ofNat 12 (w % 2 ^ nbits))⟩

end Sys2Proof.Machine
end

