-- ==== Sys2Proof/Machine/Step.lean ====
section
/-!
DEFINITION. One step: the host's oldest pending request is performed (spec 43_block_operations.md R84, 20_memory.md R43).
-/

namespace Sys2Proof.Machine

open Sys2Proof

/-- One request performed as one atomic step (R14, R84). A word that names no operation is refused (R104). With no request
pending the block does nothing (R113; log entry 1). -/
def step (s : State) : Host.Outcome State Fault Refusal :=
  match s.requests with
  | [] => .next s
  | r :: rest =>
    match fetch r.op with
    | .ok i => exec i (s.present r rest)
    | .error e => .refused (.illegalWord e)

/-- The state in which the next request is the word, addressed to the current target with the current wiring. A word comes
to the block only as a request of the host, so nothing else is changed (log entries 2 and 13). -/
def State.withFetchWord (s : State) (nbits w : Nat) : State :=
  { s with requests := wordRequest s nbits w :: s.requests }

end Sys2Proof.Machine
end

