-- ==== Sys2Proof/Safety.lean ====
section
/-!
DEFINITION. The terms the claims use: what every run keeps, which instance an operation may run on, what a
faulted run is (spec 43_block_operations.md R94).
-/

namespace Sys2Proof

open Machine

/-- The ROM holds the constant table: nothing is listed against it (R72, R116). -/
def LutIntact (s : State) : Prop := s.lut = []

/-- The table of R72, one pair of a digit and its pattern for each row, in the hexadecimal of the rule's third column. -/
def displayTable : List (Nat × Pattern) :=
  [(0, 0x3F), (1, 0x06), (2, 0x5B), (3, 0x4F), (4, 0x66), (5, 0x6D), (6, 0x7D), (7, 0x07), (8, 0x3F), (9, 0x6F)]

/-- The operation is addressed to the constructed instance `inst`, and that instance is not faulted (R102, R119). -/
def Ready (s : State) (inst : Instance) : Prop := s.addressed = some inst ∧ inst.fault = none

/-- The cache holds the conversion of the input value `v` (R86). -/
def CacheHolds (c : Cache) (v : Nat) : Prop := c = pack (convert v)

/-- The cache is as construction left it, or holds the conversion of some 8-bit value (R18, R29). -/
def CacheLegal (c : Cache) : Prop := c = Cache.unavailable ∨ ∃ v, v < 256 ∧ CacheHolds c v

/-- A record that the operations can leave: each code with an info its rule allows (R97; RENDER's own record, a position,
is ruled out by a legal cache). -/
def FaultLegal (wLine : Nat) (f : FaultRecord) : Prop :=
  match f.code with
  | .digitRange => 10 ≤ f.info ∧ f.info ≤ 15
  | .segIndexRange => f.info = 7
  | .inputUndefined => f.info < 8
  | .inputUpperBits => f.info < 8 ∧ 1 < wLine

/-- What holds of every constructed instance in every run. -/
structure InstanceLegal (inst : Instance) : Prop where
  wLine : 1 ≤ inst.wLine
  cache : CacheLegal inst.cache
  fault : ∀ f, inst.fault = some f → FaultLegal inst.wLine f

/-- The invariant of the machine: the ROM is the constant table and every instance is legal. -/
structure Legal (s : State) : Prop where
  lut : LutIntact s
  instances : ∀ inst ∈ s.instances, InstanceLegal inst

/-- The 8 line values, each `w` bits wide with upper bits 0, whose bits 0 spell `v`: line `i` carries bit `i` (R49). -/
def linesOf (w : Nat) (v : BitVec 8) : List LineValue :=
  (List.range 8).map fun i => .bits (v.getLsbD i :: List.replicate (w - 1) false)

/-- The operand spells `v` to an instance with lines `w` bits wide, as a word or as a general term (R54). -/
def Spells (inp : LineOperand) (w : Nat) (v : BitVec 8) : Prop :=
  inp = .word v ∨ (1 ≤ w ∧ inp = .lines (linesOf w v))

/-- A line value with a 1 above bit 0 (R101). -/
def HasUpperOne (l : LineValue) : Prop := ∃ b upper, l = .bits (b :: upper) ∧ true ∈ upper

/-- A general term of 8 lines, each undefined or `w` bits wide (R54, R59). -/
def LinesWide (w : Nat) (ls : List LineValue) : Prop :=
  ls.length = 8 ∧ ∀ l ∈ ls, l = .undefined ∨ ∃ bs, l = .bits bs ∧ bs.length = w

/-- A run that has faulted nowhere: every instance's fault field is none (R94). -/
def Unfaulted (s : State) : Prop := ∀ inst ∈ s.instances, inst.fault = none

/-- Every cell of the cache holds 0 or 1 (R29). -/
def Evaluated (inst : Instance) : Prop := Cell.na ∉ cacheCells inst.cache

end Sys2Proof
end

