-- ==== Sys2Proof/Certificates/Slice0/Obligations.lean ====
section
/-!
DEFINITION. What is claimed of the machine, for the provers. Each docstring names the rule of spec/ it comes from; where a
claim rests on a decision of the spec or of the model, it names that decision.
-/

open Sys2Proof Sys2Proof.Machine

/-! ### Reset and INIT -/

/-- 10_state.md R31 and 70_reset_and_hazards.md R115, R117 (decisions D10, D11 of the spec; that State.reset holds one
instance is log entry 2, that it has no request pending is log entry 1, and that segments a to f are lit and g is not
rests on the bit order of the table's strings, decision D7 of the spec, log entry 12): for every W_LINE, reset leaves
one instance with no fault, every output line na, every digit 0, and segments a to f lit, g unlit, at every position;
the ROM is the constant table, and no request is pending. -/
def Obligations.ResetLeavesOneFreshInstance : Prop :=
  ∀ w : Nat, ∃ inst, (State.resetWith w).instances = [inst] ∧ inst.fault = none ∧ inst.wLine = w ∧
    (∀ k, k < 12 → outputLine inst k = some .na) ∧ outputWord inst = none ∧
    (∀ p, instanceDigit inst p = 0) ∧
    (∀ p seg, seg < 7 → segmentSignal (State.resetWith w).lut inst p seg = .ok (decide (seg < 6))) ∧
    LutIntact (State.resetWith w) ∧ (State.resetWith w).requests = []

/-- 43_block_operations.md R85 (decision D10 of the spec; the returned index is log entry 16, and that INIT completes
with a line unconnected is log entry 14, DEDUCED): with W_LINE at least 1 and every connected input of that width, INIT
completes; it appends an instance whose 12 cells are na and whose fault is none, and changes nothing else. -/
def Obligations.InitConstructsFreshInstance : Prop :=
  ∀ s : State, 1 ≤ s.wiring.wLine →
    (∀ n, some n ∈ [s.wiring.in0, s.wiring.in1, s.wiring.in2, s.wiring.in3, s.wiring.in4, s.wiring.in5, s.wiring.in6,
      s.wiring.in7] → n = s.wiring.wLine) →
    exec .init s = .next { s with
      instances := s.instances ++
        [⟨⟨⟨.na, .na, .na, .na⟩, ⟨.na, .na, .na, .na⟩, ⟨.na, .na, .na, .na⟩⟩, none, s.wiring.wLine⟩]
      returned := some (.constructed s.instances.length) }

/-- 43_block_operations.md R85, 60_exceptions.md R104 (c) (decision D18 of the spec): INIT is refused with W_LINE 0 or
with a connected input of another width. -/
def Obligations.InitRefusesWidthMismatch : Prop :=
  ∀ s : State, (s.wiring.wLine = 0 ∨
    ∃ n, some n ∈ [s.wiring.in0, s.wiring.in1, s.wiring.in2, s.wiring.in3, s.wiring.in4, s.wiring.in5, s.wiring.in6,
      s.wiring.in7] ∧ n ≠ s.wiring.wLine) →
    exec .init s = .refused .configWidth

/-- 70_reset_and_hazards.md R115 (decision D10 of the spec; log entry 2): where no instance exists, INIT leads to the
reset state, but for the handle it returns. -/
def Obligations.InitFromNothingIsReset : Prop :=
  ∀ w : Nat, 1 ≤ w → ∃ t, exec .init (State.beforeInit w) = .next t ∧ { t with returned := none } = State.resetWith w

/-! ### IN_ASSEMBLE, CONVERT and EVAL -/

/-- 40_bcd_converter.md R63, 30_encoding.md R49 (the word form on wide lines is log entry 9): on a ready instance,
IN_ASSEMBLE completes and returns the value whose bit `i` is bit 0 of line `i`, from the word form and from a general
term of any width; nothing else changes. -/
def Obligations.InAssembleReturnsValue : Prop :=
  ∀ (s : State) (inst : Instance) (inp : LineOperand) (v : BitVec 8), Ready s inst → Spells inp inst.wLine v →
    exec (.inAssemble inp) s = .next { s with returned := some (.value v) }

/-- 40_bcd_converter.md R64: on a ready instance, CONVERT completes for every v in 0..255 and returns v mod 10, v / 10
mod 10 and v / 100; nothing else changes. -/
def Obligations.ConvertReturnsDigits : Prop :=
  ∀ (s : State) (inst : Instance) (v : Nat), Ready s inst → v ≤ 255 →
    exec (.convert v) s = .next { s with
      returned := some (.digits (BitVec.ofNat 4 (v % 10)) (BitVec.ofNat 4 (v / 10 % 10)) (BitVec.ofNat 4 (v / 100))) }

/-- 40_bcd_converter.md R65: for every v in 0..255 the digits CONVERT returns are each at most 9 and ones + 10*tens +
100*hundreds = v. -/
def Obligations.ConvertDigitsSumToValue : Prop :=
  ∀ (s : State) (inst : Instance) (v : Nat), Ready s inst → v ≤ 255 → ∃ o t h : BitVec 4,
    exec (.convert v) s = .next { s with returned := some (.digits o t h) } ∧
      o.toNat + 10 * t.toNat + 100 * h.toNat = v ∧ o.toNat ≤ 9 ∧ t.toNat ≤ 9 ∧ h.toNat ≤ 9

/-- 40_bcd_converter.md R66: as a function of any natural, CONVERT(v) = CONVERT(v % 1000) and hundreds = (v / 100) % 10.
In the block an operand above 255 is refused for its width: 30_encoding.md R59, 60_exceptions.md R104 (b), decision D20
of the spec. -/
def Obligations.ConvertKeepsLowThreeDigits : Prop :=
  (∀ v : Nat, convert v = convert (v % 1000) ∧ (convert v).hundreds = v / 100 % 10) ∧
  (∀ (s : State) (inst : Instance) (v : Nat), s.addressed = some inst → 255 < v →
    exec (.convert v) s = .refused .operandWidth)

/-- 40_bcd_converter.md R69 (derived in the spec): over 0..255 the hundreds digit is at most 2, with hundreds 2 the tens
digit is at most 5, with hundreds 2 and tens 5 the ones digit is at most 5, and the spec's multiply-and-shift divider
gives the same three digits. -/
def Obligations.ReciprocalDividerConforms : Prop :=
  ∀ (s : State) (inst : Instance) (v : Nat), Ready s inst → v ≤ 255 → ∃ o t h : BitVec 4,
    exec (.convert v) s = .next { s with returned := some (.digits o t h) } ∧
    h.toNat ≤ 2 ∧ (h = 2 → t.toNat ≤ 5) ∧ (h = 2 → t = 5 → o.toNat ≤ 5) ∧
    o.toNat + 10 * (v * 205 / 2 ^ 11) = v ∧ t.toNat + 10 * (v * 41 / 2 ^ 12) = v * 205 / 2 ^ 11 ∧
    h.toNat = v * 41 / 2 ^ 12

/-- 40_bcd_converter.md R67: CONVERT reads and writes no state; in any two states in which it runs, the same v gives the
same digits, and each state is otherwise left as it was. -/
def Obligations.ConvertReadsAndWritesNoState : Prop :=
  ∀ (s s' : State) (inst inst' : Instance) (v : Nat), Ready s inst → Ready s' inst' → v ≤ 255 → ∃ r,
    exec (.convert v) s = .next { s with returned := some r } ∧
    exec (.convert v) s' = .next { s' with returned := some r }

/-- 43_block_operations.md R86 (the word form on wide lines is log entry 9): on a ready instance, EVAL completes and
writes all 12 cells at once, the nibbles of v mod 10, v / 10 mod 10 and v / 100 in the order ones, tens, hundreds, from
the word form and from a general term of any width; it returns nothing, and nothing else changes. -/
def Obligations.EvalWritesDigits : Prop :=
  ∀ (s : State) (inst : Instance) (inp : LineOperand) (v : BitVec 8), Ready s inst → Spells inp inst.wLine v →
    exec (.eval inp) s = .next { s with
      instances := s.instances.set s.target { inst with
        cache := ⟨nibEnc (v.toNat % 10), nibEnc (v.toNat / 10 % 10), nibEnc (v.toNat / 100)⟩ }
      returned := none }

/-- 43_block_operations.md R88, 30_encoding.md R62, 40_bcd_converter.md R70 (derived in the spec; that the word form
completes on lines wider than one bit is log entry 9, DEDUCED): after an EVAL that did not fault, the output word in
hexadecimal reads as v in decimal, OUT10 and OUT11 are 0, and the digits give v back. -/
def Obligations.EvalOutputsSpellTheNumber : Prop :=
  ∀ (s : State) (inst : Instance) (inp : LineOperand) (v : BitVec 8), Ready s inst → Spells inp inst.wLine v →
    ∃ t inst', exec (.eval inp) s = .next t ∧ t.addressed = some inst' ∧
      outputWord inst' = some (v.toNat % 10 + 16 * (v.toNat / 10 % 10) + 256 * (v.toNat / 100)) ∧
      outputLine inst' 10 = some .zero ∧ outputLine inst' 11 = some .zero ∧
      instanceDigit inst' .ones + 10 * instanceDigit inst' .tens + 100 * instanceDigit inst' .hundreds = v.toNat

/-- 30_encoding.md R54, R61: on an instance with lines of any width, the word form of EVAL and IN_ASSEMBLE does what the
general term with the same bits 0, every line defined and every upper bit 0, does (log entry 9). -/
def Obligations.WordFormActsAsLineTerm : Prop :=
  ∀ (s : State) (inst : Instance) (v : BitVec 8), s.addressed = some inst → 1 ≤ inst.wLine →
    exec (.eval (.word v)) s = exec (.eval (.lines (linesOf inst.wLine v))) s ∧
    exec (.inAssemble (.word v)) s = exec (.inAssemble (.lines (linesOf inst.wLine v))) s

/-- 60_exceptions.md R100 to R102, 43_block_operations.md R86 (decisions D5, D6, D9 of the spec): when some line is
undefined or has a 1 above bit 0, EVAL and IN_ASSEMBLE take the same fault: the record names a line, no cache cell is
written, nothing is returned. Which of the two codes is recorded is not claimed. -/
def Obligations.BadInputTakesFaultAndKeepsCache : Prop :=
  ∀ (s : State) (inst : Instance) (ls : List LineValue), Ready s inst → LinesWide inst.wLine ls →
    (∃ l ∈ ls, l = .undefined ∨ HasUpperOne l) →
    ∃ f : FaultRecord, (f.code = .inputUndefined ∨ f.code = .inputUpperBits) ∧ f.info < 8 ∧
      exec (.eval (.lines ls)) s = .next { s with
        instances := s.instances.set s.target { inst with fault := some f }, returned := none } ∧
      exec (.inAssemble (.lines ls)) s = .next { s with
        instances := s.instances.set s.target { inst with fault := some f }, returned := none }

/-- 60_exceptions.md R97, R100, R101 (decisions D5, D6, D9 of the spec): with exactly one bad line, line `i`, the code
tells whether it is undefined or has a 1 above bit 0, and the info is `i`; the record is EVAL's. -/
def Obligations.SingleBadLineIsReported : Prop :=
  ∀ (s : State) (inst : Instance) (ls : List LineValue) (i : Nat) (l : LineValue), Ready s inst →
    LinesWide inst.wLine ls → ls[i]? = some l → (∀ j l', j ≠ i → ls[j]? = some l' → l' ≠ .undefined ∧ ¬ HasUpperOne l') →
    (l = .undefined → exec (.eval (.lines ls)) s = .next { s with
      instances := s.instances.set s.target { inst with fault := some ⟨.inputUndefined, i⟩ }, returned := none }) ∧
    (HasUpperOne l → exec (.eval (.lines ls)) s = .next { s with
      instances := s.instances.set s.target { inst with fault := some ⟨.inputUpperBits, i⟩ }, returned := none })

/-- 60_exceptions.md R105 (the spec's own choice D13, which it says may be wrong where two faults apply; log entry 10):
the lowest undefined line is reported whatever else is wrong; with every line defined, the lowest line with a 1 above
bit 0. -/
def Obligations.InputFaultPriority : Prop :=
  ∀ (s : State) (inst : Instance) (ls : List LineValue) (i : Nat) (l : LineValue), Ready s inst →
    LinesWide inst.wLine ls → ls[i]? = some l →
    (l = .undefined → (∀ j, j < i → ls[j]? ≠ some .undefined) → exec (.eval (.lines ls)) s = .next { s with
      instances := s.instances.set s.target { inst with fault := some ⟨.inputUndefined, i⟩ }, returned := none }) ∧
    (HasUpperOne l → .undefined ∉ ls → (∀ j l', j < i → ls[j]? = some l' → ¬ HasUpperOne l') →
      exec (.eval (.lines ls)) s = .next { s with
        instances := s.instances.set s.target { inst with fault := some ⟨.inputUpperBits, i⟩ }, returned := none })

/-- 43_block_operations.md R87 (derived in the spec): the cache an EVAL leaves depends on the input lines alone, so a
second EVAL of the same lines changes nothing, and what the cache held before does not matter. -/
def Obligations.EvalIsIdempotent : Prop :=
  ∀ (s t : State) (inp : LineOperand) (inst' : Instance), exec (.eval inp) s = .next t → Ready t inst' →
    exec (.eval inp) t = .next t ∧
    ∀ c : Cache, exec (.eval inp) (s.withAddressed { inst' with cache := c }) = .next t

/-! ### SEG_LOOKUP and SEG_TEST -/

/-- 41_segment_decoder.md R74, R77 (the entries are R72's, whose bit order is decision D7 of the spec): on a ready
instance and with the ROM intact, SEG_LOOKUP completes for every digit 0..9 and returns the table's pattern; nothing
else changes. -/
def Obligations.SegLookupReturnsTableEntry : Prop :=
  ∀ (s : State) (inst : Instance) (d : Nat) (p : Pattern), Ready s inst → LutIntact s → (d, p) ∈ displayTable →
    exec (.segLookup d) s = .next { s with returned := some (.pattern p) }

/-- 41_segment_decoder.md R75, R77 (the entries are R72's, decision D7 of the spec): on a ready instance and with the
ROM intact, SEG_TEST completes for every digit 0..9 and every segment 0..6 and returns that bit of the table's pattern.
-/
def Obligations.SegTestReturnsTableBit : Prop :=
  ∀ (s : State) (inst : Instance) (seg d : Nat) (p : Pattern), Ready s inst → LutIntact s → seg ≤ 6 →
    (d, p) ∈ displayTable →
    exec (.segTest seg d) s = .next { s with returned := some (.lit (p.toNat / 2 ^ seg % 2 == 1)) }

/-- 41_segment_decoder.md R73 (that the string reads as 0x3F is decision D7 of the spec, log entry 12): entry 8 equals
entry 0: SEG_LOOKUP and every SEG_TEST answer alike for 8 and 0, the pattern is 0x3F, and segment g is unlit. -/
def Obligations.DigitEightLooksLikeZero : Prop :=
  ∀ (s : State) (inst : Instance), Ready s inst → LutIntact s →
    exec (.segLookup 8) s = .next { s with returned := some (.pattern 0x3F) } ∧
    exec (.segLookup 8) s = exec (.segLookup 0) s ∧
    (∀ seg, exec (.segTest seg 8) s = exec (.segTest seg 0) s) ∧
    exec (.segTest 6 8) s = .next { s with returned := some (.lit false) }

/-- 60_exceptions.md R98, R102, 41_segment_decoder.md R76 (codes and mechanism: decision D9 of the spec): a digit code
10..15 at SEG_LOOKUP, or at SEG_TEST with a segment 0..6, takes DIGIT_RANGE with the code as its info, and nothing else
changes. -/
def Obligations.DigitAboveNineFaults : Prop :=
  ∀ (s : State) (inst : Instance) (d : Nat), Ready s inst → 10 ≤ d → d ≤ 15 →
    exec (.segLookup d) s = .next { s with
      instances := s.instances.set s.target { inst with fault := some ⟨.digitRange, d⟩ }, returned := none } ∧
    ∀ seg, seg ≤ 6 → exec (.segTest seg d) s = .next { s with
      instances := s.instances.set s.target { inst with fault := some ⟨.digitRange, d⟩ }, returned := none }

/-- 60_exceptions.md R99, R105 (decisions D8, D9, D13 of the spec): SEG_TEST with segment index 7 takes SEG_INDEX_RANGE
with info 7 for a digit 0..9, and DIGIT_RANGE for a code 10..15, because the digit is checked first. -/
def Obligations.SegmentIndexSevenFaults : Prop :=
  ∀ (s : State) (inst : Instance) (d : Nat), Ready s inst → d ≤ 15 →
    exec (.segTest 7 d) s = .next { s with
      instances := s.instances.set s.target { inst with
        fault := some (if d ≤ 9 then ⟨.segIndexRange, 7⟩ else ⟨.digitRange, d⟩) }
      returned := none }

/-! ### NIB_ENC and NIB_DEC -/

/-- 42_bit_packing.md R78 (operand domain: decision D17 of the spec): on a ready instance, NIB_ENC completes for every d
in 0..15 and returns cell `i` = bit `i` of d; nothing else changes. -/
def Obligations.NibEncReturnsBits : Prop :=
  ∀ (s : State) (inst : Instance) (d : Nat), Ready s inst → d ≤ 15 →
    exec (.nibEnc d) s = .next { s with returned := some (.nibble
      ⟨if d.testBit 0 then .one else .zero, if d.testBit 1 then .one else .zero, if d.testBit 2 then .one else .zero,
        if d.testBit 3 then .one else .zero⟩) }

/-- 42_bit_packing.md R79 (the number of the tag is decision D2 of the spec): NIB_DEC has tag 0x8 and completes on a
ready instance; with an unavailable cell among the four it returns 0, and otherwise the sum of `b[i] << i`; it takes no
fault and nothing else changes. -/
def Obligations.NibDecReturnsDigit : Prop :=
  (∀ b : Nibble, ∃ w, encode (.nibDec b) = some w ∧ w.toNat / 256 = 8) ∧
  ∀ (s : State) (inst : Instance) (b : Nibble), Ready s inst →
    ((b.b0 = .na ∨ b.b1 = .na ∨ b.b2 = .na ∨ b.b3 = .na) →
      exec (.nibDec b) s = .next { s with returned := some (.digit 0) }) ∧
    (∀ x : BitVec 4,
      b = ⟨if x.getLsbD 0 then .one else .zero, if x.getLsbD 1 then .one else .zero, if x.getLsbD 2 then .one else .zero,
        if x.getLsbD 3 then .one else .zero⟩ →
      exec (.nibDec b) s = .next { s with returned := some (.digit x) })

/-- 42_bit_packing.md R80 (derived in the spec): encoding a digit and decoding the bits that came back returns the
digit, for every d in 0..15. -/
def Obligations.NibbleRoundTripReturnsDigit : Prop :=
  ∀ (s : State) (inst : Instance) (d : Nat), Ready s inst → d ≤ 15 → ∃ b t,
    exec (.nibEnc d) s = .next t ∧ t.returned = some (.nibble b) ∧
    exec (.nibDec b) t = .next { s with returned := some (.digit (BitVec.ofNat 4 d)) }

/-! ### RENDER -/

/-- 43_block_operations.md R89, 10_state.md R27, R28 (the entries are R72's, decision D7 of the spec): on a ready
instance with a legal cache and with the ROM intact, RENDER completes, returns the table's pattern of each position's
digit, and changes nothing else; so it takes no fault. -/
def Obligations.RenderReturnsPatterns : Prop :=
  ∀ (s : State) (inst : Instance), Ready s inst → LutIntact s → CacheLegal inst.cache → ∃ p0 p1 p2 : Pattern,
    (instanceDigit inst .ones, p0) ∈ displayTable ∧ (instanceDigit inst .tens, p1) ∈ displayTable ∧
    (instanceDigit inst .hundreds, p2) ∈ displayTable ∧
    exec .render s = .next { s with returned := some (.patterns p0 p1 p2) }

/-- 43_block_operations.md R91 (that the string reads as 0x3F is decision D7 of the spec, log entry 12): before the
first EVAL of an instance, while its cache is as construction left it, RENDER returns 0x3F, the table's entry for 0, at
each of the three positions. -/
def Obligations.RenderBeforeEvalShowsZeros : Prop :=
  ∀ (s : State) (inst : Instance), Ready s inst → LutIntact s →
    inst.cache = ⟨⟨.na, .na, .na, .na⟩, ⟨.na, .na, .na, .na⟩, ⟨.na, .na, .na, .na⟩⟩ →
    s.lut.read 0 = some 0x3F ∧
    exec .render s = .next { s with returned := some (.patterns 0x3F 0x3F 0x3F) }

/-- 43_block_operations.md R89, R92, 20_memory.md R43 (entries: decision D7 of the spec, log entry 12; that EVAL's word
form completes on lines wider than one bit is log entry 9, DEDUCED): a RENDER right after an EVAL of v shows the table's
patterns of v mod 10, v / 10 mod 10 and v / 100, leading zeros and all. -/
def Obligations.RenderAfterEvalShowsValue : Prop :=
  ∀ (s : State) (inst : Instance) (v : BitVec 8) (p0 p1 p2 : Pattern), Ready s inst → LutIntact s →
    (v.toNat % 10, p0) ∈ displayTable → (v.toNat / 10 % 10, p1) ∈ displayTable → (v.toNat / 100, p2) ∈ displayTable →
    ∃ t, exec (.eval (.word v)) s = .next t ∧
      exec .render t = .next { t with returned := some (.patterns p0 p1 p2) }

/-- 43_block_operations.md R89, 60_exceptions.md R98 (order of the positions: decision D13 of the spec): in a state no
run reaches, a position that decodes to 10..15 makes RENDER take DIGIT_RANGE with the lowest such position as its info.
-/
def Obligations.RenderReportsLowestBadPosition : Prop :=
  ∀ (s : State) (inst : Instance) (p : Nat), Ready s inst →
    ((9 < instanceDigit inst .ones ∧ p = 0) ∨
      (instanceDigit inst .ones ≤ 9 ∧ 9 < instanceDigit inst .tens ∧ p = 1) ∨
      (instanceDigit inst .ones ≤ 9 ∧ instanceDigit inst .tens ≤ 9 ∧ 9 < instanceDigit inst .hundreds ∧ p = 2)) →
    exec .render s = .next { s with
      instances := s.instances.set s.target { inst with fault := some ⟨.digitRange, p⟩ }, returned := none }

/-- 43_block_operations.md R90: any number of renders one after the other, from one on, return the same patterns and
leave the machine as the first left it. -/
def Obligations.RepeatedRendersAgree : Prop :=
  ∀ (s : State) (inst : Instance), Ready s inst → LutIntact s → CacheLegal inst.cache → ∃ p0 p1 p2 : Pattern,
    ∀ n : Nat, Host.Core.run Sys2Proof.core (n + 1)
      { s with requests := List.replicate (n + 1) ⟨s.target, s.wiring, .term .render⟩ } =
      .next { s with requests := [], returned := some (.patterns p0 p1 p2) }

/-! ### Frames and what an instruction may not touch -/

/-- 43_block_operations.md R96, 20_memory.md R40, 60_exceptions.md R102: RENDER, IN_ASSEMBLE, CONVERT, SEG_LOOKUP,
SEG_TEST, NIB_ENC and NIB_DEC write no cache cell and no ROM entry; every other instance is as before; the addressed one
keeps its cache and its W_LINE, and gets a fault field only together with no result. -/
def Obligations.ComputingOperationsFrame : Prop :=
  ∀ (i : Instr) (s t : State), i ≠ .init → (∀ inp, i ≠ .eval inp) → exec i s = .next t →
    t.requests = s.requests ∧ t.target = s.target ∧ t.wiring = s.wiring ∧ (∀ d, t.lut.read d = s.lut.read d) ∧
    t.instances.length = s.instances.length ∧ (∀ k, k ≠ s.target → t.instances[k]? = s.instances[k]?) ∧
    ∃ inst inst', Ready s inst ∧ t.addressed = some inst' ∧ inst'.cache = inst.cache ∧ inst'.wLine = inst.wLine ∧
      (inst'.fault = none ∧ t.returned ≠ none ∨ inst'.fault ≠ none ∧ t.returned = none)

/-- 43_block_operations.md R86, 10_state.md R30, 60_exceptions.md R102: EVAL writes no ROM entry and no other instance;
of the addressed one it writes the cache and keeps the fault field none, or writes the fault field and keeps the cache.
-/
def Obligations.EvalFrame : Prop :=
  ∀ (inp : LineOperand) (s t : State), exec (.eval inp) s = .next t →
    t.requests = s.requests ∧ t.target = s.target ∧ t.wiring = s.wiring ∧ (∀ d, t.lut.read d = s.lut.read d) ∧
    t.returned = none ∧ t.instances.length = s.instances.length ∧
    (∀ k, k ≠ s.target → t.instances[k]? = s.instances[k]?) ∧
    ∃ inst inst', Ready s inst ∧ t.addressed = some inst' ∧ inst'.wLine = inst.wLine ∧
      (inst'.fault = none ∧ Evaluated inst' ∨ inst'.fault ≠ none ∧ inst'.cache = inst.cache)

/-- 20_memory.md R36: no operation changes any LUT entry. The second clause, that the list which holds the ROM keeps its
canonical form, is about the model's own form of the ROM (log entry 4, DESIGN CHOICE). -/
def Obligations.RomIsNeverWritten : Prop :=
  ∀ s t : State, step s = .next t → (∀ d, t.lut.read d = s.lut.read d) ∧ (s.lut.wf = true → t.lut.wf = true)

/-- 10_state.md R30, 60_exceptions.md R111: a step changes no instance but the one its request is addressed to, whatever
the request is; an INIT changes none that exists. -/
def Obligations.OtherInstancesUntouched : Prop :=
  ∀ (s t : State) (k : Nat) (inst : Instance) (r : Request) (rest : List Request), step s = .next t →
    s.requests = r :: rest → s.instances[k]? = some inst → (k ≠ r.target ∨ fetch r.op = .ok .init) →
    t.instances[k]? = some inst

/-- 10_state.md R23, R29, 60_exceptions.md R102: over any step an instance keeps its W_LINE, a cache without an
unavailable cell stays so, and a faulted instance keeps everything. -/
def Obligations.InstancePersists : Prop :=
  ∀ (s t : State) (k : Nat) (inst : Instance), step s = .next t → s.instances[k]? = some inst →
    ∃ inst', t.instances[k]? = some inst' ∧ inst'.wLine = inst.wLine ∧ (Evaluated inst → Evaluated inst') ∧
      (inst.fault ≠ none → inst' = inst)

/-! ### Faults that last, and refusals -/

/-- 60_exceptions.md R102, 93_implementation_defined.md #14 (decision D9 of the spec): no operation but INIT has a step
on a faulted instance. -/
def Obligations.FaultedInstanceHasNoStep : Prop :=
  ∀ (i : Instr) (s : State) (inst : Instance) (f : FaultRecord), s.addressed = some inst → inst.fault = some f →
    i ≠ .init → i.wellFormed inst.wLine = true → exec i s = .fault (.quiescent f)

/-- 60_exceptions.md R102, R103 (decisions D9, D10 of the spec): in every run, of any length and from every state, a
faulted instance keeps its fault and its cache for ever. -/
def Obligations.FaultIsNeverCleared : Prop :=
  ∀ (n : Nat) (s t : State) (k : Nat) (inst : Instance) (f : FaultRecord), s.instances[k]? = some inst →
    inst.fault = some f → Host.Core.run Sys2Proof.core n s = .next t → t.instances[k]? = some inst

/-- 70_reset_and_hazards.md R119, 60_exceptions.md R104 (d) (decision D10 of the spec): every operation but INIT
addressed to an instance that has not been constructed is refused. That the reason named is this one for an ill-formed
term too, where R104 (b) applies as well, is log entry 8 (DESIGN CHOICE). -/
def Obligations.UnconstructedInstanceIsRefused : Prop :=
  ∀ (i : Instr) (s : State), s.instances.length ≤ s.target → i ≠ .init → exec i s = .refused (.unconstructed s.target)

/-- 30_encoding.md R59, 60_exceptions.md R104 (b), R105 (decisions D18, D20, D13 of the spec): on a constructed instance
an operation is refused for an operand's width exactly when the term is ill formed there, whether or not it is faulted.
-/
def Obligations.WidthRefusedExactlyWhenIllFormed : Prop :=
  ∀ (i : Instr) (s : State) (inst : Instance), s.addressed = some inst →
    (exec i s = .refused .operandWidth ↔ i.wellFormed inst.wLine = false)

/-! ### Words, requests and runs -/

/-- 30_encoding.md R54, R58 (decision D2 of the spec): a 12-bit word names an operation exactly when it meets a row of
spec/opcode_table.json and, for NIB_DEC, has no cell code 11. -/
def Obligations.DecodeAcceptsExactlyTableWords : Prop :=
  ∀ w : OpWord, (∃ i, decode w = .ok i) ↔
    (w.toNat &&& 0xFFF = 0x000 ∨ w.toNat &&& 0xF00 = 0x100 ∨ w.toNat &&& 0xFFF = 0x200 ∨ w.toNat &&& 0xF00 = 0x300 ∨
      w.toNat &&& 0xF00 = 0x400 ∨ w.toNat &&& 0xFF0 = 0x500 ∨ w.toNat &&& 0xF80 = 0x600 ∨ w.toNat &&& 0xFF0 = 0x700 ∨
      (w.toNat &&& 0xF00 = 0x800 ∧ w.toNat &&& 0xC0 ≠ 0xC0 ∧ w.toNat &&& 0x30 ≠ 0x30 ∧ w.toNat &&& 0xC ≠ 0xC ∧
        w.toNat &&& 0x3 ≠ 0x3))

/-- 30_encoding.md R54, R55 (decision D2 of the spec): every well-formed term that has a word is encoded, and its word
decodes to it, with every operand at every value. -/
def Obligations.DecodeOfEncodeIsTheTerm : Prop :=
  ∀ (wLine : Nat) (i : Instr), i.wellFormed wLine = true → i.hasWord = true →
    ∃ w, encode i = some w ∧ decode w = .ok i

/-- 30_encoding.md R54, R58, R60 (decision D2 of the spec): a word that decodes is the word of what it decodes to, so no
two words name one operation, and the term is well formed on every instance. -/
def Obligations.EncodeOfDecodeIsTheWord : Prop :=
  ∀ (w : OpWord) (i : Instr), decode w = .ok i → encode i = some w ∧ ∀ wLine, i.wellFormed wLine = true

/-- 95_test_vectors.md sections 2 and 3, 30_encoding.md R54 (decision D2 of the spec): words the spec writes out decode
to the operations it says. -/
def Obligations.KnownWordsDecode : Prop :=
  decode 0x000 = .ok .init ∧ decode 0x1FF = .ok (.eval (.word 255)) ∧ decode 0x200 = .ok .render ∧
    decode 0x4D1 = .ok (.convert 209) ∧ decode 0x509 = .ok (.segLookup 9) ∧ decode 0x669 = .ok (.segTest 6 9) ∧
    decode 0x709 = .ok (.nibEnc 9) ∧ decode 0x821 = .ok (.nibDec ⟨.one, .zero, .na, .zero⟩) ∧
    decode 0x9FF = .error (.reservedTag 9) ∧ decode 0x8C0 = .error .illegalCellCode

/-- 30_encoding.md R61 (decision D14 of the spec): lines of text the spec writes out spell the operations it says; a
line with an operand outside its range spells none. -/
def Obligations.TextLinesSpellOperations : Prop :=
  parseText "init".toList = some .init ∧ parseText "eval #42".toList = parseText "eval 00101010".toList ∧
    parseText "eval 00101010".toList = some (.eval (.word 42)) ∧
    parseText "seg_test g, #9".toList = some (.segTest 6 9) ∧
    parseText "nib_dec x111".toList = some (.nibDec ⟨.one, .one, .one, .na⟩) ∧ parseText "convert #256".toList = none

/-- 43_block_operations.md R84, 20_memory.md R43, 60_exceptions.md R104, R113 (log entries 1 and 7): a step performs the
oldest request: the operation is exec of the term, or of what the word decodes to, on the state with that request taken
off and its target and wiring presented; a word that names no operation is refused; with no request nothing changes. -/
def Obligations.StepPerformsOldestRequest : Prop :=
  ∀ (s : State) (rest : List Request) (k : Nat) (wiring : Wiring),
    (s.requests = [] → step s = .next s) ∧
    (∀ i, s.requests = ⟨k, wiring, .term i⟩ :: rest →
      step s = exec i { s with requests := rest, target := k, wiring := wiring }) ∧
    (∀ w i, s.requests = ⟨k, wiring, .word w⟩ :: rest → decode w = .ok i →
      step s = exec i { s with requests := rest, target := k, wiring := wiring }) ∧
    (∀ w e, s.requests = ⟨k, wiring, .word w⟩ :: rest → decode w = .error e → step s = .refused (.illegalWord e))

/-- 10_state.md R18, R29, R31, 40_bcd_converter.md R65, 43_block_operations.md R89 (derived in the spec),
60_exceptions.md R97: every step keeps the invariant: the ROM is the constant table; every instance has W_LINE at least
1, a cache that is as construction left it or holds the conversion of an 8-bit value, and a fault record its rule
allows, never RENDER's. -/
def Obligations.StepKeepsLegal : Prop :=
  ∀ s t : State, Legal s → step s = .next t → Legal t

/-- 70_reset_and_hazards.md R115, R116 (log entries 2 and 3): the reset state for every W_LINE from 1 on meets the
invariant, State.reset among them. -/
def Obligations.ResetIsLegal : Prop :=
  (∀ w, 1 ≤ w → Legal (State.resetWith w)) ∧ Legal State.reset

/-- 10_state.md R30, 20_memory.md R44: what an operation other than INIT does to its instance and returns depends on
that instance and the ROM alone: two states that agree on them cannot be told apart by it. -/
def Obligations.OperationSeesOnlyItsInstance : Prop :=
  ∀ (i : Instr) (s s' t : State), i ≠ .init → s.addressed = s'.addressed → s.lut = s'.lut → exec i s = .next t →
    ∃ t', exec i s' = .next t' ∧ t'.addressed = t.addressed ∧ t'.returned = t.returned

/-- 20_memory.md R44: no ordering between operations on different instances is observable: two operations on two
instances, in either order, leave the same instances and return the same results; so do a construction and an operation
on an instance that exists; and the LUT reads the same throughout. The handle that INIT returns, which the second clause
compares, is log entry 16 (DESIGN CHOICE). Left out are two constructions, whose handles tell their order, and orders in
which an operation has no step or is refused. -/
def Obligations.OrderAcrossInstancesIsUnobservable : Prop :=
  (∀ (i j : Instr) (s t u : State) (k l : Nat), i ≠ .init → j ≠ .init → k ≠ l →
    exec i { s with target := k } = .next t → exec j { t with target := l } = .next u →
    ∃ t' u', exec j { s with target := l } = .next t' ∧ exec i { t' with target := k } = .next u' ∧
      u'.instances = u.instances ∧ t'.returned = u.returned ∧ u'.returned = t.returned ∧
      ∀ d, u.lut.read d = s.lut.read d ∧ u'.lut.read d = s.lut.read d) ∧
  (∀ (j : Instr) (s t u : State) (l : Nat), j ≠ .init → l < s.instances.length →
    exec .init s = .next t → exec j { t with target := l } = .next u →
    ∃ t' u', exec j { s with target := l } = .next t' ∧ exec .init t' = .next u' ∧
      u'.instances = u.instances ∧ t'.returned = u.returned ∧ u'.returned = t.returned ∧
      ∀ d, u.lut.read d = s.lut.read d ∧ u'.lut.read d = s.lut.read d)

/-- 43_block_operations.md R89 (derived in the spec), R94, 60_exceptions.md R97 (that the word forms complete on lines
wider than one bit is log entry 9, DEDUCED): in a legal state without a fault, RENDER, CONVERT, NIB_ENC, NIB_DEC and the
word forms of EVAL and IN_ASSEMBLE, addressed to an instance that exists, complete and fault nowhere, and the state
stays legal. -/
def Obligations.BlockOperationsNeverFault : Prop :=
  ∀ (i : Instr) (s : State), Legal s → Unfaulted s → s.target < s.instances.length →
    (i = .render ∨ (∃ v, i = .eval (.word v)) ∨ (∃ v, i = .inAssemble (.word v)) ∨ (∃ v, v ≤ 255 ∧ i = .convert v) ∨
      (∃ d, d ≤ 15 ∧ i = .nibEnc d) ∨ ∃ b, i = .nibDec b) →
    ∃ t, exec i s = .next t ∧ Unfaulted t ∧ Legal t
end

