-- ==== Sys2Proof/Laws/State.lean ====
section
/-!
SUPPORT. One lemma for each field of each update of the state, so that no proof unfolds a record update.
-/

namespace Sys2Proof.Machine

open Sys2Proof

variable (s : State)

@[simp] theorem withAddressed_lut (inst : Instance) : (s.withAddressed inst).lut = s.lut := rfl
@[simp] theorem withAddressed_instances (inst : Instance) :
    (s.withAddressed inst).instances = s.instances.set s.target inst := rfl
@[simp] theorem withAddressed_requests (inst : Instance) : (s.withAddressed inst).requests = s.requests := rfl
@[simp] theorem withAddressed_target (inst : Instance) : (s.withAddressed inst).target = s.target := rfl
@[simp] theorem withAddressed_wiring (inst : Instance) : (s.withAddressed inst).wiring = s.wiring := rfl
@[simp] theorem withAddressed_returned (inst : Instance) : (s.withAddressed inst).returned = s.returned := rfl

@[simp] theorem answer_lut (r : Result) : (s.answer r).lut = s.lut := rfl
@[simp] theorem answer_instances (r : Result) : (s.answer r).instances = s.instances := rfl
@[simp] theorem answer_requests (r : Result) : (s.answer r).requests = s.requests := rfl
@[simp] theorem answer_target (r : Result) : (s.answer r).target = s.target := rfl
@[simp] theorem answer_wiring (r : Result) : (s.answer r).wiring = s.wiring := rfl
@[simp] theorem answer_returned (r : Result) : (s.answer r).returned = some r := rfl

@[simp] theorem writeCache_lut (inst : Instance) (c : Cache) : (s.writeCache inst c).lut = s.lut := rfl
@[simp] theorem writeCache_instances (inst : Instance) (c : Cache) :
    (s.writeCache inst c).instances = s.instances.set s.target { inst with cache := c } := rfl
@[simp] theorem writeCache_requests (inst : Instance) (c : Cache) : (s.writeCache inst c).requests = s.requests := rfl
@[simp] theorem writeCache_target (inst : Instance) (c : Cache) : (s.writeCache inst c).target = s.target := rfl
@[simp] theorem writeCache_wiring (inst : Instance) (c : Cache) : (s.writeCache inst c).wiring = s.wiring := rfl
@[simp] theorem writeCache_returned (inst : Instance) (c : Cache) : (s.writeCache inst c).returned = none := rfl

@[simp] theorem raiseFault_lut (inst : Instance) (f : FaultRecord) : (s.raiseFault inst f).lut = s.lut := rfl
@[simp] theorem raiseFault_instances (inst : Instance) (f : FaultRecord) :
    (s.raiseFault inst f).instances = s.instances.set s.target { inst with fault := some f } := rfl
@[simp] theorem raiseFault_requests (inst : Instance) (f : FaultRecord) :
    (s.raiseFault inst f).requests = s.requests := rfl
@[simp] theorem raiseFault_target (inst : Instance) (f : FaultRecord) : (s.raiseFault inst f).target = s.target := rfl
@[simp] theorem raiseFault_wiring (inst : Instance) (f : FaultRecord) : (s.raiseFault inst f).wiring = s.wiring := rfl
@[simp] theorem raiseFault_returned (inst : Instance) (f : FaultRecord) : (s.raiseFault inst f).returned = none := rfl

@[simp] theorem construct_lut (w : Nat) : (s.construct w).lut = s.lut := rfl
@[simp] theorem construct_instances (w : Nat) : (s.construct w).instances = s.instances ++ [Instance.fresh w] := rfl
@[simp] theorem construct_requests (w : Nat) : (s.construct w).requests = s.requests := rfl
@[simp] theorem construct_target (w : Nat) : (s.construct w).target = s.target := rfl
@[simp] theorem construct_wiring (w : Nat) : (s.construct w).wiring = s.wiring := rfl
@[simp] theorem construct_returned (w : Nat) : (s.construct w).returned = some (.constructed s.instances.length) := rfl

@[simp] theorem present_lut (r : Request) (rest : List Request) : (s.present r rest).lut = s.lut := rfl
@[simp] theorem present_instances (r : Request) (rest : List Request) :
    (s.present r rest).instances = s.instances := rfl
@[simp] theorem present_requests (r : Request) (rest : List Request) : (s.present r rest).requests = rest := rfl
@[simp] theorem present_target (r : Request) (rest : List Request) : (s.present r rest).target = r.target := rfl
@[simp] theorem present_wiring (r : Request) (rest : List Request) : (s.present r rest).wiring = r.wiring := rfl
@[simp] theorem present_returned (r : Request) (rest : List Request) : (s.present r rest).returned = s.returned := rfl

@[simp] theorem withFetchWord_lut (nbits w : Nat) : (s.withFetchWord nbits w).lut = s.lut := rfl
@[simp] theorem withFetchWord_instances (nbits w : Nat) : (s.withFetchWord nbits w).instances = s.instances := rfl
@[simp] theorem withFetchWord_requests (nbits w : Nat) :
    (s.withFetchWord nbits w).requests = wordRequest s nbits w :: s.requests := rfl
@[simp] theorem withFetchWord_target (nbits w : Nat) : (s.withFetchWord nbits w).target = s.target := rfl
@[simp] theorem withFetchWord_wiring (nbits w : Nat) : (s.withFetchWord nbits w).wiring = s.wiring := rfl
@[simp] theorem withFetchWord_returned (nbits w : Nat) : (s.withFetchWord nbits w).returned = s.returned := rfl

@[simp] theorem present_addressed (r : Request) (rest : List Request) :
    (s.present r rest).addressed = s.instances[r.target]? := rfl

@[simp] theorem answer_addressed (r : Result) : (s.answer r).addressed = s.addressed := rfl

/-- After the addressed instance is replaced, it is the one found there. -/
theorem withAddressed_addressed {inst : Instance} (h : s.addressed = some inst) (inst' : Instance) :
    (s.withAddressed inst').addressed = some inst' := by
  have hlt : s.target < s.instances.length := (List.getElem?_eq_some_iff.mp h).1
  simp [State.addressed, hlt]

/-- The cache the addressed instance holds after a write. -/
theorem writeCache_addressed {inst : Instance} (h : s.addressed = some inst) (c : Cache) :
    (s.writeCache inst c).addressed = some { inst with cache := c } :=
  withAddressed_addressed s h _

/-- The record the addressed instance holds after a fault. -/
theorem raiseFault_addressed {inst : Instance} (h : s.addressed = some inst) (f : FaultRecord) :
    (s.raiseFault inst f).addressed = some { inst with fault := some f } :=
  withAddressed_addressed s h _

/-- Replacing the addressed instance leaves every other one. -/
theorem withAddressed_other (inst : Instance) {k : Nat} (hk : k ≠ s.target) :
    (s.withAddressed inst).instances[k]? = s.instances[k]? := by
  simp [hk.symm]

/-- Construction leaves every instance that was there. -/
theorem construct_old (w : Nat) {k : Nat} {inst : Instance} (h : s.instances[k]? = some inst) :
    (s.construct w).instances[k]? = some inst := by
  have hlt : k < s.instances.length := (List.getElem?_eq_some_iff.mp h).1
  simp [List.getElem?_append_left hlt, h]

end Sys2Proof.Machine
end

