-- ==== Sys2Proof/Laws/Memory.lean ====
section
/-!
SUPPORT. The ROM: which addresses are mapped, what they read as, and the canonical form (spec 20_memory.md R34 to R41).
-/

namespace Sys2Proof.Machine

open Sys2Proof

/-- The table has an entry exactly for 0 to 9. -/
theorem lutEntry_isSome (d : Nat) : (lutEntry d).isSome = decide (d ≤ 9) := by
  rcases Nat.lt_or_ge d 10 with h | h
  · interval_cases d <;> rfl
  · have hn : lutEntry d = none := by
      unfold lutEntry
      split <;> first | rfl | omega
    simp [hn]
    omega

theorem lutEntry_none {d : Nat} (h : 9 < d) : lutEntry d = none := by
  have := lutEntry_isSome d
  simp only [show ¬ d ≤ 9 by omega, decide_false] at this
  simpa using this

theorem lutEntry_some {d : Nat} (h : d ≤ 9) : ∃ p, lutEntry d = some p := by
  have := lutEntry_isSome d
  simp only [h, decide_true] at this
  exact Option.isSome_iff_exists.mp this

/-- With nothing listed, the ROM reads as the constant table. -/
@[simp] theorem read_nil (d : Nat) : Memory.read [] d = lutEntry d := by
  unfold Memory.read
  cases lutEntry d <;> rfl

/-- No list maps an address above 9. -/
theorem read_unmapped (m : Memory) {d : Nat} (h : 9 < d) : m.read d = none := by
  simp [Memory.read, lutEntry_none h]

/-- Every list maps the addresses 0 to 9. -/
theorem read_mapped (m : Memory) {d : Nat} (h : d ≤ 9) : ∃ p, m.read d = some p := by
  obtain ⟨p, hp⟩ := lutEntry_some h
  exact ⟨(listedEntry d m).getD p, by simp [Memory.read, hp]⟩

/-- A mapped read returns its entry. -/
theorem memRead_ok {m : Memory} {d : Nat} {p : Pattern} (h : m.read d = some p) : memRead m d = .ok p := by
  simp [memRead, h]

/-- An unmapped read faults (R35, R41). -/
theorem memRead_unmapped (m : Memory) {d : Nat} (h : 9 < d) : memRead m d = .error ⟨.digitRange, d⟩ := by
  simp [memRead, read_unmapped m h]

@[simp] theorem wf_nil : Memory.wf [] = true := rfl

/-- The ROM of every reset state is in canonical form. -/
theorem resetWith_wf (w : Nat) : (State.resetWith w).lut.wf = true := rfl

end Sys2Proof.Machine
end

