-- ==== Sys2Proof/Laws/Operands.lean ====
section
/-!
SUPPORT. What the operand forms give (spec 30_encoding.md R54, 40_bcd_converter.md R63).
-/

namespace Sys2Proof.Machine

open Sys2Proof

@[simp] theorem fits_iff (w n : Nat) : fits w n = true ↔ n < 2 ^ w := by simp [fits]

@[simp] theorem lineUndefined_narrow (w : Nat) (b : Bool) : lineUndefined (narrowLine w b) = false := rfl

@[simp] theorem lineUpperSet_narrow (w : Nat) (b : Bool) : lineUpperSet (narrowLine w b) = false := by
  simp [narrowLine, lineUpperSet]

@[simp] theorem lineBit_narrow (w : Nat) (b : Bool) : lineBit (narrowLine w b) = b.toNat := by
  cases b <;> rfl

theorem lineFits_narrow {w : Nat} (h : 1 ≤ w) (b : Bool) : lineFits w (narrowLine w b) = true := by
  simp [narrowLine, lineFits]
  omega

/-- A line adds at most its bit. -/
theorem lineBit_le_one (l : LineValue) : lineBit l ≤ 1 := by
  unfold lineBit
  split <;> omega

/-- `n` lines give a value below `2 ^ n`. -/
theorem lineSum_lt (ls : List LineValue) : lineSum ls < 2 ^ ls.length := by
  induction ls with
  | nil => simp [lineSum]
  | cons l ls ih =>
    have := lineBit_le_one l
    simp only [lineSum, List.length_cons, Nat.pow_succ]
    omega

/-- Lines with neither a missing value nor a set upper bit give their sum. -/
theorem assemble_ok {ls : List LineValue} (hu : ∀ l ∈ ls, lineUndefined l = false)
    (hb : ∀ l ∈ ls, lineUpperSet l = false) : assemble ls = .ok (lineSum ls) := by
  have h1 : ls.findIdx? lineUndefined = none := List.findIdx?_eq_none_iff.mpr hu
  have h2 : ls.findIdx? lineUpperSet = none := List.findIdx?_eq_none_iff.mpr hb
  simp [assemble, h1, h2]

/-- Everything `assemble` can answer: the sum, or the lowest undefined line, or, with every line defined, the lowest line
with a set upper bit. -/
theorem assemble_cases (ls : List LineValue) :
    assemble ls = .ok (lineSum ls) ∨
    (∃ i, ls.findIdx? lineUndefined = some i ∧ assemble ls = .error ⟨.inputUndefined, i⟩) ∨
    (∃ i, ls.findIdx? lineUndefined = none ∧ ls.findIdx? lineUpperSet = some i ∧
      assemble ls = .error ⟨.inputUpperBits, i⟩) := by
  unfold assemble
  cases h1 : ls.findIdx? lineUndefined with
  | some i => exact .inr (.inl ⟨i, rfl, rfl⟩)
  | none =>
    cases h2 : ls.findIdx? lineUpperSet with
    | some i => exact .inr (.inr ⟨i, rfl, rfl, rfl⟩)
    | none => exact .inl rfl

/-- The word form is the 8 bits of the word on lines whose upper bits are 0. -/
theorem lineValues_word (w : Nat) (v : BitVec 8) :
    lineValues w (.word v) =
      [narrowLine w (v.getLsbD 0), narrowLine w (v.getLsbD 1), narrowLine w (v.getLsbD 2), narrowLine w (v.getLsbD 3),
        narrowLine w (v.getLsbD 4), narrowLine w (v.getLsbD 5), narrowLine w (v.getLsbD 6), narrowLine w (v.getLsbD 7)] := rfl

theorem lineSum_word (w : Nat) (v : BitVec 8) : lineSum (lineValues w (.word v)) = v.toNat := by
  simp only [lineValues_word, lineSum, lineBit_narrow]
  revert v
  decide

/-- The word form always assembles, to the number the word holds. -/
theorem assembleOperand_word (inst : Instance) (v : BitVec 8) :
    assembleOperand (.word v) inst = .ok v.toNat := by
  rw [assembleOperand, assemble_ok, lineSum_word] <;> simp [lineValues_word]

/-- Operands that fit stand for 8 lines. -/
theorem lineValues_length {inp : LineOperand} {inst : Instance} (h : linesFit inp inst = true) :
    (lineValues inst.wLine inp).length = 8 := by
  cases inp with
  | word v => rfl
  | lines ls =>
    simp only [linesFit, Bool.and_eq_true, decide_eq_true_eq] at h
    exact h.1

/-- Operands that fit assemble to an 8-bit value. -/
theorem assembleOperand_lt {inp : LineOperand} {inst : Instance} {v : Nat} (hf : linesFit inp inst = true)
    (h : assembleOperand inp inst = .ok v) : v < 256 := by
  have hlen := lineSum_lt (lineValues inst.wLine inp)
  rw [lineValues_length hf] at hlen
  rcases assemble_cases (lineValues inst.wLine inp) with h' | ⟨i, _, h'⟩ | ⟨i, _, _, h'⟩ <;>
    rw [assembleOperand, h'] at h <;> cases h
  exact hlen

end Sys2Proof.Machine
end

