-- ==== Sys2Proof/Laws/Exec.lean ====
section
/-!
SUPPORT. Once for all operations: what the shared guard and the shared ending can answer, and what `exec` can answer.
-/

namespace Sys2Proof.Machine

open Sys2Proof

/-- On a constructed, unfaulted instance and with operands of their width, the guard runs the body. -/
theorem onAddressed_ready {ok : Instance → Bool} {s : State} {inst : Instance} {body : Instance → Next}
    (h : Ready s inst) (hok : ok inst = true) : onAddressed ok s body = body inst := by
  simp [onAddressed, h.1, hok, h.2]

/-- Everything the guard can answer. -/
theorem onAddressed_cases (ok : Instance → Bool) (s : State) (body : Instance → Next) :
    (s.addressed = none ∧ onAddressed ok s body = .refused (.unconstructed s.target)) ∨
    (∃ inst, s.addressed = some inst ∧ ok inst = false ∧ onAddressed ok s body = .refused .operandWidth) ∨
    (∃ inst f, s.addressed = some inst ∧ ok inst = true ∧ inst.fault = some f ∧
      onAddressed ok s body = .fault (.quiescent f)) ∨
    (∃ inst, Ready s inst ∧ ok inst = true ∧ onAddressed ok s body = body inst) := by
  unfold onAddressed
  cases ha : s.addressed with
  | none => exact .inl ⟨rfl, rfl⟩
  | some inst =>
    cases hok : ok inst with
    | false => exact .inr (.inl ⟨inst, rfl, hok, by simp [hok]⟩)
    | true =>
      cases hf : inst.fault with
      | some f => exact .inr (.inr (.inl ⟨inst, f, rfl, hok, hf, by simp [hok, hf]⟩))
      | none => exact .inr (.inr (.inr ⟨inst, ⟨ha, hf⟩, hok, by simp [hok, hf]⟩))

/-- The guard answers a next state only by running the body on a constructed, unfaulted instance. -/
theorem onAddressed_next {ok : Instance → Bool} {s t : State} {body : Instance → Next}
    (h : onAddressed ok s body = .next t) : ∃ inst, Ready s inst ∧ ok inst = true ∧ body inst = .next t := by
  rcases onAddressed_cases ok s body with ⟨_, h'⟩ | ⟨_, _, _, h'⟩ | ⟨_, _, _, _, _, h'⟩ | ⟨inst, hr, hok, h'⟩
  · rw [h'] at h; cases h
  · rw [h'] at h; cases h
  · rw [h'] at h; cases h
  · exact ⟨inst, hr, hok, h' ▸ h⟩

/-- An operation that only computes ends with its result or takes its fault, and never otherwise. -/
theorem finish_next {s t : State} {inst : Instance} {x : Except FaultRecord Result} (h : finish s inst x = .next t) :
    (∃ r, x = .ok r ∧ t = s.answer r) ∨ (∃ f, x = .error f ∧ t = s.raiseFault inst f) := by
  cases x with
  | ok r => exact .inl ⟨r, rfl, by injection h with h; exact h.symm⟩
  | error f => exact .inr ⟨f, rfl, by injection h with h; exact h.symm⟩

/-- The meanings that only compute, each as one guard and one ending: operand check and result by instruction. -/
def computed (i : Instr) (s : State) (inst : Instance) : Option (Except FaultRecord Result) :=
  match i with
  | .init => none
  | .eval _ => none
  | .render => some (renderPatterns s.lut inst.cache)
  | .inAssemble inp => some ((assembleOperand inp inst).map fun v => .value (BitVec.ofNat 8 v))
  | .convert v => some (.ok (digitsResult (convert v)))
  | .segLookup d => some ((segLookup s.lut d).map .pattern)
  | .segTest seg d => some ((segTest s.lut seg d).map .lit)
  | .nibEnc d => some (.ok (.nibble (nibEnc d)))
  | .nibDec b => some (.ok (.digit (BitVec.ofNat 4 (nibDec b))))

/-- Everything an operation can answer as a next state: INIT constructs; EVAL writes the cache or takes a fault; every
other operation returns a result or takes a fault. -/
theorem exec_next {i : Instr} {s t : State} (h : exec i s = .next t) :
    (i = .init ∧ wiringOk s.wiring = true ∧ t = s.construct s.wiring.wLine) ∨
    (∃ inp inst v, i = .eval inp ∧ Ready s inst ∧ linesFit inp inst = true ∧ assembleOperand inp inst = .ok v ∧
      t = s.writeCache inst (pack (convert v))) ∨
    (∃ inp inst f, i = .eval inp ∧ Ready s inst ∧ linesFit inp inst = true ∧ assembleOperand inp inst = .error f ∧
      t = s.raiseFault inst f) ∨
    (∃ inst r, Ready s inst ∧ computed i s inst = some (.ok r) ∧ t = s.answer r) ∨
    (∃ inst f, Ready s inst ∧ computed i s inst = some (.error f) ∧ t = s.raiseFault inst f) := by
  have pure : ∀ {ok : Instance → Bool} {body : Instance → Except FaultRecord Result},
      (∀ inst, computed i s inst = some (body inst)) →
      onAddressed ok s (fun inst => finish s inst (body inst)) = .next t →
      (∃ inst r, Ready s inst ∧ computed i s inst = some (.ok r) ∧ t = s.answer r) ∨
      (∃ inst f, Ready s inst ∧ computed i s inst = some (.error f) ∧ t = s.raiseFault inst f) := by
    intro ok body hc h
    obtain ⟨inst, hr, -, hb⟩ := onAddressed_next h
    rcases finish_next hb with ⟨r, hx, ht⟩ | ⟨f, hx, ht⟩
    · exact .inl ⟨inst, r, hr, by rw [hc, hx], ht⟩
    · exact .inr ⟨inst, f, hr, by rw [hc, hx], ht⟩
  cases i with
  | init =>
    simp only [exec, execInit] at h
    split at h
    · rename_i hw
      exact .inl ⟨rfl, hw, by injection h with h; exact h.symm⟩
    · cases h
  | eval inp =>
    obtain ⟨inst, hr, hok, hb⟩ := onAddressed_next h
    cases hx : assembleOperand inp inst with
    | ok v =>
      rw [hx] at hb
      exact .inr (.inl ⟨inp, inst, v, rfl, hr, hok, hx, by injection hb with hb; exact hb.symm⟩)
    | error f =>
      rw [hx] at hb
      exact .inr (.inr (.inl ⟨inp, inst, f, rfl, hr, hok, hx, by injection hb with hb; exact hb.symm⟩))
  | render => exact .inr (.inr (.inr (pure (fun _ => rfl) h)))
  | inAssemble inp => exact .inr (.inr (.inr (pure (fun _ => rfl) h)))
  | convert v => exact .inr (.inr (.inr (pure (fun _ => rfl) h)))
  | segLookup d => exact .inr (.inr (.inr (pure (fun _ => rfl) h)))
  | segTest seg d => exact .inr (.inr (.inr (pure (fun _ => rfl) h)))
  | nibEnc d => exact .inr (.inr (.inr (pure (fun _ => rfl) h)))
  | nibDec b => exact .inr (.inr (.inr (pure (fun _ => rfl) h)))

/-- The wiring INIT accepts, in the words of R85. -/
theorem wiringOk_iff (w : Wiring) : wiringOk w = true ↔
    1 ≤ w.wLine ∧ ∀ n, some n ∈ [w.in0, w.in1, w.in2, w.in3, w.in4, w.in5, w.in6, w.in7] → n = w.wLine := by
  simp only [wiringOk, connectedWidths, Bool.and_eq_true, decide_eq_true_eq, List.all_eq_true, List.mem_filterMap, id,
    beq_iff_eq]
  constructor
  · rintro ⟨h, h'⟩
    exact ⟨h, fun n hn => h' n ⟨_, hn, rfl⟩⟩
  · rintro ⟨h, h'⟩
    refine ⟨h, ?_⟩
    rintro n ⟨a, ha, rfl⟩
    exact h' n ha

/-- An operand that spells a value has its width. -/
theorem linesFit_of_spells {inp : LineOperand} {inst : Instance} {v : BitVec 8} (h : Spells inp inst.wLine v) :
    linesFit inp inst = true := by
  rcases h with rfl | ⟨hw, rfl⟩
  · rfl
  · simp only [linesFit, linesOf, Bool.and_eq_true, decide_eq_true_eq, List.length_map, List.length_range, true_and,
      List.all_map, List.all_eq_true]
    exact fun x _ => lineFits_narrow hw _

/-- An operand that spells a value assembles to it. -/
theorem assembleOperand_of_spells {inp : LineOperand} {inst : Instance} {v : BitVec 8} (h : Spells inp inst.wLine v) :
    assembleOperand inp inst = .ok v.toNat := by
  rcases h with rfl | ⟨-, rfl⟩ <;> exact assembleOperand_word inst v

theorem lineUndefined_iff (l : LineValue) : lineUndefined l = true ↔ l = .undefined := by
  cases l <;> simp [lineUndefined]

theorem lineUpperSet_iff (l : LineValue) : lineUpperSet l = true ↔ HasUpperOne l := by
  unfold HasUpperOne
  rcases l with _ | (_ | ⟨b, u⟩) <;> simp [lineUpperSet]

/-- A step either idles or performs the oldest request's operation on the state that presents it. -/
theorem step_next {s t : State} (h : step s = .next t) :
    (s.requests = [] ∧ t = s) ∨
    (∃ r rest i, s.requests = r :: rest ∧ fetch r.op = .ok i ∧ exec i (s.present r rest) = .next t) := by
  unfold step at h
  cases hq : s.requests with
  | nil =>
    rw [hq] at h
    injection h with h
    exact .inl ⟨rfl, h.symm⟩
  | cons r rest =>
    rw [hq] at h
    cases hf : fetch r.op with
    | ok i =>
      simp only [hf] at h
      exact .inr ⟨r, rest, i, rfl, hf, h⟩
    | error e =>
      simp only [hf] at h
      cases h

/-- Replacing the addressed instance by itself changes nothing. -/
theorem withAddressed_self {s : State} {inst : Instance} (h : s.addressed = some inst) : s.withAddressed inst = s := by
  obtain ⟨_, hi⟩ := List.getElem?_eq_some_iff.mp h
  simp only [State.withAddressed, ← hi, List.set_getElem_self]

/-- All an operation other than INIT may write: the addressed instance and what it returns. -/
theorem exec_writes {i : Instr} {s t : State} (hi : i ≠ .init) (h : exec i s = .next t) :
    ∃ inst, t.addressed = some inst ∧ t = { s.withAddressed inst with returned := t.returned } := by
  rcases exec_next h with ⟨h, -⟩ | ⟨inp, inst, v, -, hr, -, -, rfl⟩ | ⟨inp, inst, f, -, hr, -, -, rfl⟩ |
    ⟨inst, r, hr, -, rfl⟩ | ⟨inst, f, hr, -, rfl⟩
  · exact absurd h hi
  · exact ⟨_, writeCache_addressed s hr.1 _, rfl⟩
  · exact ⟨_, raiseFault_addressed s hr.1 _, rfl⟩
  · exact ⟨inst, hr.1, by rw [withAddressed_self hr.1]; rfl⟩
  · exact ⟨_, raiseFault_addressed s hr.1 _, rfl⟩

/-- No operation writes the ROM: it has no write operation (R36). -/
theorem exec_lut {i : Instr} {s t : State} (h : exec i s = .next t) : t.lut = s.lut := by
  by_cases hi : i = .init
  · subst hi
    simp only [exec, execInit] at h
    split at h <;> cases h
    rfl
  · obtain ⟨inst, -, ht⟩ := exec_writes hi h
    rw [ht]
    rfl

/-- So every operation keeps the ROM's canonical form. -/
theorem exec_keeps_wf {i : Instr} {s t : State} (h : exec i s = .next t) (hw : s.lut.wf = true) : t.lut.wf = true := by
  rw [exec_lut h, hw]

end Sys2Proof.Machine
end

