-- ==== Sys2Proof/Laws/Packing.lean ====
section
/-!
SUPPORT. Digits, nibbles and the three-digit cache (spec 40_bcd_converter.md R64, 42_bit_packing.md R78 to R82).
-/

namespace Sys2Proof.Machine

open Sys2Proof

@[simp] theorem convert_ones (v : Nat) : (convert v).ones = v % 10 := rfl

theorem convert_tens (v : Nat) : (convert v).tens = v / 10 % 10 := rfl

theorem convert_hundreds (v : Nat) : (convert v).hundreds = v / 10 / 10 % 10 := rfl

@[simp] theorem unpack_unavailable : unpack Cache.unavailable = ⟨0, 0, 0⟩ := rfl

@[simp] theorem unpack_ones (c : Cache) : (unpack c).ones = nibDec c.ones := rfl

@[simp] theorem unpack_tens (c : Cache) : (unpack c).tens = nibDec c.tens := rfl

@[simp] theorem unpack_hundreds (c : Cache) : (unpack c).hundreds = nibDec c.hundreds := rfl

@[simp] theorem pack_ones (d : Digits) : (pack d).ones = nibEnc d.ones := rfl

@[simp] theorem pack_tens (d : Digits) : (pack d).tens = nibEnc d.tens := rfl

@[simp] theorem pack_hundreds (d : Digits) : (pack d).hundreds = nibEnc d.hundreds := rfl

/-- The fixed parameters of R7 are the sizes the definitions have. -/
theorem cacheCells_length (c : Cache) : (cacheCells c).length = Config.nOut := rfl

theorem nibbleCells_length (n : Nibble) : (nibbleCells n).length = Config.nibW := rfl

theorem nOut_eq : Config.nOut = Config.nDigits * Config.nibW := rfl

theorem displayTable_length : displayTable.length = Config.lutEntries := rfl

theorem lineValues_word_length (w : Nat) (v : BitVec 8) : (lineValues w (.word v)).length = Config.nIn := rfl

theorem word_le_vMax (v : BitVec 8) : v.toNat ≤ Config.vMax := by
  have := v.isLt
  simp only [Config.vMax]
  omega

/-- The table of `Safety.lean`, in the hexadecimal of R72's third column, is the one `lutEntry` reads from the strings of its
second column. -/
theorem lutEntry_of_displayTable {d : Nat} {p : Pattern} (h : (d, p) ∈ displayTable) : d ≤ 9 ∧ lutEntry d = some p := by
  have rows : ∀ row ∈ displayTable, row.1 ≤ 9 ∧ lutEntry row.1 = some row.2 := by decide
  exact rows _ h

/-- A cell made from a bit is available. -/
theorem cellOfBit_ne_na (b : Bool) : cellOfBit b ≠ .na := by cases b <;> simp [cellOfBit]

/-- A packed cache has no unavailable cell. -/
theorem na_not_mem_pack (d : Digits) : Cell.na ∉ cacheCells (pack d) := by
  simp [cacheCells, nibbleCells, nibEnc, digitCell, (cellOfBit_ne_na _).symm]

/-- Every 4-bit number comes back from its bits. -/
theorem nibDec_nibEnc {d : Nat} (h : d < 16) : nibDec (nibEnc d) = d := by
  revert d
  decide

/-- A nibble of bits reads as the number it was made from. -/
theorem numberOfCells_nibEnc {d : Nat} (h : d < 16) : numberOfCells (nibbleCells (nibEnc d)) = some d := by
  revert d
  decide

/-- Decoding what an 8-bit value was packed into gives its digits. -/
theorem unpack_pack_convert (v : Nat) : unpack (pack (convert v)) = convert v := by
  have h1 : v % 10 < 16 := by omega
  have h2 : v / 10 % 10 < 16 := by omega
  have h3 : v / 10 / 10 % 10 < 16 := by omega
  simp [unpack, pack, convert, nibDec_nibEnc h1, nibDec_nibEnc h2, nibDec_nibEnc h3]

/-- A digit's pattern, once its address reads so. -/
theorem segLookup_ok {m : Memory} {d : Nat} {p : Pattern} (h9 : d ≤ 9) (h : m.read d = some p) :
    segLookup m d = .ok p := by
  rw [segLookup, if_neg (by omega), memRead_ok h]

/-- A code above 9 faults at the decoder. -/
theorem segLookup_bad (m : Memory) {d : Nat} (h : 9 < d) : segLookup m d = .error ⟨.digitRange, d⟩ := by
  rw [segLookup, if_pos h]

/-- A render of three digits gives their patterns. -/
theorem renderPatterns_ok {m : Memory} {c : Cache} {p0 p1 p2 : Pattern} (h0 : (unpack c).ones ≤ 9)
    (h1 : (unpack c).tens ≤ 9) (h2 : (unpack c).hundreds ≤ 9) (r0 : m.read (unpack c).ones = some p0)
    (r1 : m.read (unpack c).tens = some p1) (r2 : m.read (unpack c).hundreds = some p2) :
    renderPatterns m c = .ok (.patterns p0 p1 p2) := by
  rw [renderPatterns, if_neg (by omega), if_neg (by omega), if_neg (by omega), segLookup_ok h0 r0, segLookup_ok h1 r1,
    segLookup_ok h2 r2]

end Sys2Proof.Machine
end

