-- ==== Sys2Proof/Laws/PerInstr.lean ====
section
/-!
SUPPORT. One family of statements made per instruction: an encoded word meets its row of spec/opcode_table.json.
-/

namespace Sys2Proof.Laws

open Sys2Proof

/-- The row's mask and match, copied from spec/opcode_table.json. -/
def tableRow : Instr → Nat × Nat
  | .init => (0xFFF, 0x000)
  | .eval _ => (0xF00, 0x100)
  | .render => (0xFFF, 0x200)
  | .inAssemble _ => (0xF00, 0x300)
  | .convert _ => (0xF00, 0x400)
  | .segLookup _ => (0xFF0, 0x500)
  | .segTest _ _ => (0xF80, 0x600)
  | .nibEnc _ => (0xFF0, 0x700)
  | .nibDec _ => (0xF00, 0x800)

/-- The word of the term, masked as its row says, is the row's match. -/
def TableRow.Statement (i : Instr) : Prop :=
  ∀ w, encode i = some w → w.toNat &&& (tableRow i).1 = (tableRow i).2

theorem TableRow.init : TableRow.Statement .init := by
  rintro w ⟨⟩
  rfl

theorem TableRow.eval (inp : LineOperand) : TableRow.Statement (.eval inp) := by
  cases inp with
  | lines ls => rintro w ⟨⟩
  | word v =>
    rintro w ⟨⟩
    revert v
    decide

theorem TableRow.render : TableRow.Statement .render := by
  rintro w ⟨⟩
  rfl

theorem TableRow.inAssemble (inp : LineOperand) : TableRow.Statement (.inAssemble inp) := by
  cases inp with
  | lines ls => rintro w ⟨⟩
  | word v =>
    rintro w ⟨⟩
    revert v
    decide

theorem TableRow.convert (v : Nat) : TableRow.Statement (.convert v) := by
  intro w h
  simp only [encode] at h
  split at h
  · rename_i hv
    cases h
    obtain ⟨b, rfl⟩ : ∃ b : BitVec 8, b.toNat = v := ⟨BitVec.ofNat 8 v, by simp; omega⟩
    revert b
    decide
  · cases h

theorem TableRow.segLookup (d : Nat) : TableRow.Statement (.segLookup d) := by
  intro w h
  simp only [encode] at h
  split at h
  · rename_i hd
    cases h
    revert d
    decide
  · cases h

theorem TableRow.segTest (s d : Nat) : TableRow.Statement (.segTest s d) := by
  intro w h
  simp only [encode] at h
  split at h
  · rename_i hsd
    cases h
    obtain ⟨hs, hd⟩ := hsd
    interval_cases s <;> revert d <;> decide
  · cases h

theorem TableRow.nibEnc (d : Nat) : TableRow.Statement (.nibEnc d) := by
  intro w h
  simp only [encode] at h
  split at h
  · rename_i hd
    cases h
    revert d
    decide
  · cases h

theorem TableRow.nibDec (b : Nibble) : TableRow.Statement (.nibDec b) := by
  rintro w ⟨⟩
  obtain ⟨b0, b1, b2, b3⟩ := b
  cases b0 <;> cases b1 <;> cases b2 <;> cases b3 <;> rfl

end Sys2Proof.Laws
end

