-- ==== Sys2Proof/Laws/Run.lean ====
section
/-!
SUPPORT. Runs of the machine: one step at the front of a run.
-/

namespace Sys2Proof.Machine

open Sys2Proof

/-- A run whose first step answers a next state goes on from there. -/
theorem run_of_next (M : Host.Core) {s s' : M.State} (h : M.step s = .next s') (n : Nat) :
    M.run (n + 1) s = M.run n s' := by
  simp [Host.Core.run, h]

/-- A run that ends in a state made its first step. -/
theorem next_of_run (M : Host.Core) {s t : M.State} {n : Nat} (h : M.run (n + 1) s = .next t) :
    ∃ s', M.step s = .next s' ∧ M.run n s' = .next t := by
  cases hs : M.step s with
  | next s' => exact ⟨s', rfl, by rwa [run_of_next M hs] at h⟩
  | fault r => simp [Host.Core.run, hs] at h
  | refused r => simp [Host.Core.run, hs] at h

/-- The same for this machine, in its own names. -/
theorem core_run_of_next {s s' : State} (h : step s = .next s') (n : Nat) :
    Host.Core.run core (n + 1) s = Host.Core.run core n s' :=
  run_of_next core (s := s) (s' := s') h n

theorem next_of_core_run {s t : State} {n : Nat} (h : Host.Core.run core (n + 1) s = .next t) :
    ∃ s', step s = .next s' ∧ Host.Core.run core n s' = .next t :=
  next_of_run core (s := s) (t := t) h

end Sys2Proof.Machine
end

