-- ==== Sys2Proof/Tests/Slice0.lean ====
section
/-!
SUPPORT. Small tests, expected values from spec/95_test_vectors.md and from the rules' own examples, and for each statement
of Certificates/Slice0/Obligations.lean with hypotheses a concrete state and operands that meet them.
-/

namespace Sys2Proof.Tests

open Sys2Proof Machine

/-! ### Small states and readers -/

/-- The next state an outcome answers. -/
def nextOf : Host.Outcome State Fault Refusal → Option State
  | .next s => some s
  | .fault _ => none
  | .refused _ => none

/-- What the operation returned. -/
def returnedOf (o : Host.Outcome State Fault Refusal) : Option Result := (nextOf o).bind State.returned

/-- The addressed instance after the operation. -/
def instanceOf (o : Host.Outcome State Fault Refusal) : Option Instance := (nextOf o).bind State.addressed

/-- The fault field of the addressed instance after the operation. -/
def faultOf (o : Host.Outcome State Fault Refusal) : Option FaultRecord := (instanceOf o).bind Instance.fault

/-- One instance with the cache, on lines `w` wide. -/
def holding (w : Nat) (c : Cache) : State := { State.resetWith w with instances := [⟨c, none, w⟩] }

/-- One faulted instance (P5 of 95_test_vectors.md). -/
def faulted : State := { State.reset with instances := [⟨pack ⟨5, 0, 0⟩, some ⟨.digitRange, 12⟩, 1⟩] }

/-- The state with one request pending. -/
def asking (s : State) (k : Nat) (op : Operation) : State := { s with requests := [⟨k, Wiring.uniform 1, op⟩] }

/-- A line of two bits, the upper one first as the spec writes it. -/
def two (upper low : Bool) : LineValue := .bits [low, upper]

/-- Eight lines, line 0 first: lines 0 and 2 are 1 (P6, `v = 5`). -/
def five : List LineValue :=
  [two false true, two false false, two false true, two false false, two false false, two false false, two false false,
    two false false]

/-- Bit 1 of line 5 is 1, the last row but three of 95_test_vectors.md 2.1. -/
def upperFive : List LineValue :=
  [two false true, two false false, two false false, two false false, two false false, two true false, two false false,
    two false false]

/-- Line 0 undefined and bit 1 of line 5 is 1. -/
def bothBad : List LineValue :=
  [.undefined, two false false, two false false, two false false, two false false, two true false, two false false,
    two false false]

/-- Line 3 undefined. -/
def thirdUndefined : List LineValue :=
  [two false false, two false false, two false false, .undefined, two false false, two false false, two false false,
    two false false]

/-! ### Ill-formed terms are refused -/

theorem test_seven_lines_ill_formed : (Instr.eval (.lines (five.take 7))).wellFormed 2 = false := by decide
theorem test_wrong_width_ill_formed : (Instr.inAssemble (.lines five)).wellFormed 1 = false := by decide
theorem test_convert_256_ill_formed : (Instr.convert 256).wellFormed 1 = false := by decide
theorem test_lookup_16_ill_formed : (Instr.segLookup 16).wellFormed 1 = false := by decide
theorem test_test_8_ill_formed : (Instr.segTest 8 0).wellFormed 1 = false := by decide
theorem test_test_digit_16_ill_formed : (Instr.segTest 0 16).wellFormed 1 = false := by decide
theorem test_nib_enc_16_ill_formed : (Instr.nibEnc 16).wellFormed 1 = false := by decide
theorem test_five_well_formed : (Instr.eval (.lines five)).wellFormed 2 = true := by decide
theorem test_refuses_ill_formed : exec (.convert 256) State.reset = .refused .operandWidth := rfl
theorem test_refuses_wrong_width : exec (.eval (.lines five)) State.reset = .refused .operandWidth := rfl

/-! ### Words, bit by bit from R54 -/

theorem test_decode_init : decode 0b0000_00000000 = .ok .init := by decide
theorem test_decode_eval : decode 0b0001_10000000 = .ok (.eval (.word 128)) := by decide
theorem test_decode_render : decode 0b0010_00000000 = .ok .render := by decide
theorem test_decode_in_assemble : decode 0b0011_01010101 = .ok (.inAssemble (.word 85)) := by decide
theorem test_decode_convert : decode 0b0100_11010001 = .ok (.convert 209) := by decide
theorem test_decode_seg_lookup : decode 0b0101_00001010 = .ok (.segLookup 10) := by decide
theorem test_decode_seg_test : decode 0b0110_01101001 = .ok (.segTest 6 9) := by decide
theorem test_decode_nib_enc : decode 0b0111_00001001 = .ok (.nibEnc 9) := by decide
theorem test_decode_nib_dec : decode 0b1000_10010101 = .ok (.nibDec ⟨.one, .one, .one, .na⟩) := by decide
theorem test_reserved_tag_refused : decode 0x9FF = .error (.reservedTag 9) := by decide
theorem test_init_padding_refused : decode 0x001 = .error (.nonzeroPadding 0) := by decide
theorem test_seg_test_padding_refused : decode 0x680 = .error (.nonzeroPadding 6) := by decide
theorem test_nib_enc_padding_refused : decode 0x71A = .error (.nonzeroPadding 7) := by decide
theorem test_cell_code_refused : decode 0x8C0 = .error .illegalCellCode := by decide
theorem test_encode_seg_test : encode (.segTest 6 9) = some 0x669 := by decide
theorem test_encode_nib_dec : encode (.nibDec ⟨.na, .one, .one, .one⟩) = some 0x856 := by decide
theorem test_table_word : decodeTableWord 16 0x4D1 = some (.convert 209) := by decide
theorem test_text_comment : parseText "nib_enc #15 ; all ones".toList = some (.nibEnc 15) := by decide
theorem test_text_leading_zeros : parseText "eval #00255".toList = some (.eval (.word 255)) := by decide
theorem test_text_no_comma : parseText "seg_test g #9".toList = none := by decide

/-! ### One operation each -/

theorem test_init : nextOf (exec .init faulted) =
    some { faulted with
      instances := faulted.instances ++ [⟨Cache.unavailable, none, 1⟩], returned := some (.constructed 1) } := by decide
theorem test_eval_255 : (instanceOf (exec (.eval (.word 255)) State.reset)).bind outputWord = some 0x255 := by decide
theorem test_eval_wide : (instanceOf (exec (.eval (.lines five)) (State.resetWith 2))).bind outputWord = some 0x005 := by
  decide
theorem test_render_255 : returnedOf (exec .render (holding 1 (pack ⟨5, 5, 2⟩))) =
    some (.patterns 0x6D 0x6D 0x5B) := by decide
theorem test_render_fresh : returnedOf (exec .render State.reset) = some (.patterns 0x3F 0x3F 0x3F) := by decide
theorem test_in_assemble_undefined_first : faultOf (exec (.inAssemble (.lines bothBad)) (State.resetWith 2)) =
    some ⟨.inputUndefined, 0⟩ := by decide
theorem test_in_assemble_upper : faultOf (exec (.inAssemble (.lines upperFive)) (State.resetWith 2)) =
    some ⟨.inputUpperBits, 5⟩ := by decide
theorem test_convert_128 : returnedOf (exec (.convert 128) State.reset) = some (.digits 8 2 1) := by decide
theorem test_convert_wide_1234 : convert 1234 = ⟨4, 3, 2⟩ := by decide
theorem test_seg_lookup_2 : returnedOf (exec (.segLookup 2) State.reset) = some (.pattern 0x5B) := by decide
theorem test_seg_lookup_12 : faultOf (exec (.segLookup 12) State.reset) = some ⟨.digitRange, 12⟩ := by decide
theorem test_seg_test_b_5 : returnedOf (exec (.segTest 1 5) State.reset) = some (.lit false) := by decide
theorem test_seg_test_7_15 : faultOf (exec (.segTest 7 15) State.reset) = some ⟨.digitRange, 15⟩ := by decide
theorem test_nib_enc_5 : returnedOf (exec (.nibEnc 5) State.reset) = some (.nibble ⟨.one, .zero, .one, .zero⟩) := by decide
theorem test_nib_dec_na : returnedOf (exec (.nibDec ⟨.na, .one, .one, .one⟩) State.reset) = some (.digit 0) := by decide
theorem test_nib_dec_15 : returnedOf (exec (.nibDec ⟨.one, .one, .one, .one⟩) State.reset) = some (.digit 15) := by decide
theorem test_first_step_after_reset : (instanceOf (step (State.reset.withFetchWord 16 0x180))).bind outputWord =
    some 0x128 := by decide
theorem test_idle : step State.reset = .next State.reset := rfl
theorem test_fault_numbers : [FaultCode.digitRange, .segIndexRange, .inputUndefined, .inputUpperBits].map faultNumber =
    [1, 2, 3, 4] := by decide
theorem test_rom_form : Memory.wf [(3, 0), (8, 0x7F)] = true ∧ Memory.wf [(8, 0x3F)] = false ∧ Memory.wf [(10, 0)] = false := by
  decide

/-! ### Every statement's hypotheses are met somewhere -/

/-- The reset instance is ready, whatever its W_LINE. -/
theorem witness_ready (w : Nat) : Ready (State.resetWith w) (Instance.fresh w) := ⟨rfl, rfl⟩

theorem witness_holding (w : Nat) (c : Cache) : Ready (holding w c) ⟨c, none, w⟩ := ⟨rfl, rfl⟩

theorem witness_lut_intact (w : Nat) : Ready (State.resetWith w) (Instance.fresh w) ∧ LutIntact (State.resetWith w) :=
  ⟨⟨rfl, rfl⟩, rfl⟩

theorem witness_InitConstructsFreshInstance : 1 ≤ (State.resetWith 2).wiring.wLine ∧
    ∀ n, some n ∈ [(State.resetWith 2).wiring.in0, (State.resetWith 2).wiring.in1, (State.resetWith 2).wiring.in2,
      (State.resetWith 2).wiring.in3, (State.resetWith 2).wiring.in4, (State.resetWith 2).wiring.in5,
      (State.resetWith 2).wiring.in6, (State.resetWith 2).wiring.in7] → n = (State.resetWith 2).wiring.wLine := by
  simp [State.resetWith, Wiring.uniform]

theorem witness_InitRefusesWidthMismatch_zero : (State.resetWith 0).wiring.wLine = 0 ∧
    exec .init (State.resetWith 0) = .refused .configWidth := ⟨rfl, rfl⟩

/-- Line 7 is connected with 2 bits where W_LINE is 1, and line 6 is not connected. -/
theorem witness_InitRefusesWidthMismatch_width :
    some 2 ∈ [some 1, some 1, some 1, some 1, some 1, some 1, none, some 2] ∧
    exec .init { State.reset with
      wiring := ⟨1, some 1, some 1, some 1, some 1, some 1, some 1, none, some 2⟩ } = .refused .configWidth :=
  ⟨by decide, rfl⟩

theorem witness_InitFromNothingIsReset : 1 ≤ 1 ∧
    nextOf (exec .init (State.beforeInit 1)) = some { State.resetWith 1 with returned := some (.constructed 0) } := by decide

theorem witness_Spells_word : Ready (State.resetWith 3) (Instance.fresh 3) ∧ Spells (.word 255) (Instance.fresh 3).wLine 255 :=
  ⟨⟨rfl, rfl⟩, .inl rfl⟩

theorem witness_Spells_lines : Ready (State.resetWith 1) (Instance.fresh 1) ∧
    Spells (.lines (linesOf 1 129)) (Instance.fresh 1).wLine 129 := ⟨⟨rfl, rfl⟩, .inr ⟨by decide, rfl⟩⟩

/-- The line form of 5 on two-bit lines is P6's. -/
theorem witness_Spells_five : Spells (.lines five) 2 5 := .inr ⟨by decide, by decide⟩

theorem witness_ConvertReturnsDigits : Ready State.reset (Instance.fresh 1) ∧ 255 ≤ 255 := ⟨⟨rfl, rfl⟩, by decide⟩

theorem witness_ConvertKeepsLowThreeDigits : State.reset.addressed = some (Instance.fresh 1) ∧ 255 < 256 := ⟨rfl, by decide⟩

theorem witness_ConvertReadsAndWritesNoState : Ready State.reset (Instance.fresh 1) ∧
    Ready (holding 4 (pack ⟨9, 9, 1⟩)) ⟨pack ⟨9, 9, 1⟩, none, 4⟩ ∧ 200 ≤ 255 := ⟨⟨rfl, rfl⟩, ⟨rfl, rfl⟩, by decide⟩

theorem witness_WordFormActsAsLineTerm : (State.resetWith 2).addressed = some (Instance.fresh 2) ∧ 1 ≤ (Instance.fresh 2).wLine :=
  ⟨rfl, by decide⟩

theorem linesWide_of_check {w : Nat} {ls : List LineValue} (h : (LineOperand.lines ls).wellFormed w = true) :
    LinesWide w ls := by
  simp only [LineOperand.wellFormed, Bool.and_eq_true, beq_iff_eq, List.all_eq_true] at h
  refine ⟨h.1, fun l hl => ?_⟩
  have hw := h.2 l hl
  cases l with
  | undefined => exact .inl rfl
  | bits bs => exact .inr ⟨bs, rfl, by simpa [LineValue.wellFormed] using hw⟩

theorem witness_BadInput_undefined : Ready (State.resetWith 2) (Instance.fresh 2) ∧
    LinesWide (Instance.fresh 2).wLine thirdUndefined ∧ ∃ l ∈ thirdUndefined, l = .undefined ∨ HasUpperOne l :=
  ⟨⟨rfl, rfl⟩, linesWide_of_check (by decide), _, by decide, .inl rfl⟩

theorem witness_BadInput_upper : Ready (State.resetWith 2) (Instance.fresh 2) ∧
    LinesWide (Instance.fresh 2).wLine upperFive ∧ ∃ l ∈ upperFive, l = .undefined ∨ HasUpperOne l :=
  ⟨⟨rfl, rfl⟩, linesWide_of_check (by decide), two true false, by decide, .inr ⟨_, _, rfl, by decide⟩⟩

theorem witness_two_good (b : Bool) : two false b ≠ .undefined ∧ ¬ HasUpperOne (two false b) := by
  refine ⟨by simp [two], ?_⟩
  rintro ⟨_, _, h, ht⟩
  cases h
  simp at ht

theorem witness_SingleBadLine_undefined : Ready (State.resetWith 2) (Instance.fresh 2) ∧ LinesWide 2 thirdUndefined ∧ thirdUndefined[3]? = some .undefined ∧
    ∀ j l', j ≠ 3 → thirdUndefined[j]? = some l' → l' ≠ .undefined ∧ ¬ HasUpperOne l' := by
  refine ⟨⟨rfl, rfl⟩, linesWide_of_check (by decide), rfl, ?_⟩
  intro j l' hj h
  have hlt : j < 8 := (List.getElem?_eq_some_iff.mp h).1
  interval_cases j <;> first | exact absurd rfl hj | (cases h; exact witness_two_good _)

theorem witness_SingleBadLine_upper : Ready (State.resetWith 2) (Instance.fresh 2) ∧ LinesWide 2 upperFive ∧ upperFive[5]? = some (two true false) ∧
    HasUpperOne (two true false) ∧
    ∀ j l', j ≠ 5 → upperFive[j]? = some l' → l' ≠ .undefined ∧ ¬ HasUpperOne l' := by
  refine ⟨⟨rfl, rfl⟩, linesWide_of_check (by decide), rfl, ⟨_, _, rfl, by decide⟩, ?_⟩
  intro j l' hj h
  have hlt : j < 8 := (List.getElem?_eq_some_iff.mp h).1
  interval_cases j <;> first | exact absurd rfl hj | (cases h; exact witness_two_good _)

theorem witness_InputFaultPriority_undefined : Ready (State.resetWith 2) (Instance.fresh 2) ∧ LinesWide 2 bothBad ∧ bothBad[0]? = some .undefined ∧
    ∀ j, j < 0 → bothBad[j]? ≠ some .undefined :=
  ⟨⟨rfl, rfl⟩, linesWide_of_check (by decide), rfl, fun _ h => absurd h (by omega)⟩

theorem witness_InputFaultPriority_upper : Ready (State.resetWith 2) (Instance.fresh 2) ∧ LinesWide 2 upperFive ∧ upperFive[5]? = some (two true false) ∧
    HasUpperOne (two true false) ∧ .undefined ∉ upperFive ∧
    ∀ j l', j < 5 → upperFive[j]? = some l' → ¬ HasUpperOne l' :=
  ⟨⟨rfl, rfl⟩, linesWide_of_check (by decide), rfl, ⟨_, _, rfl, by decide⟩, by decide,
    fun j l' hj h => (witness_SingleBadLine_upper.2.2.2.2 j l' (by omega) h).2⟩

theorem witness_EvalIsIdempotent :
    exec (.eval (.word 37)) State.reset = .next (holding 1 (pack ⟨7, 3, 0⟩)) ∧
    Ready (holding 1 (pack ⟨7, 3, 0⟩)) ⟨pack ⟨7, 3, 0⟩, none, 1⟩ := ⟨rfl, rfl, rfl⟩

theorem witness_SegLookupReturnsTableEntry : Ready State.reset (Instance.fresh 1) ∧ LutIntact State.reset ∧
    (0, 0x3F) ∈ displayTable ∧ (9, 0x6F) ∈ displayTable := ⟨⟨rfl, rfl⟩, rfl, by decide, by decide⟩

theorem witness_SegTestReturnsTableBit : Ready State.reset (Instance.fresh 1) ∧ LutIntact State.reset ∧ 6 ≤ 6 ∧
    (9, 0x6F) ∈ displayTable := ⟨⟨rfl, rfl⟩, rfl, by decide, by decide⟩

theorem witness_DigitEightLooksLikeZero : Ready State.reset (Instance.fresh 1) ∧ LutIntact State.reset :=
  ⟨⟨rfl, rfl⟩, rfl⟩

/-- Both ends of the range, 10 and 15, with the last segment. -/
theorem witness_DigitAboveNineFaults : Ready State.reset (Instance.fresh 1) ∧ (10 ≤ 10 ∧ 10 ≤ 15) ∧ (10 ≤ 15 ∧ 15 ≤ 15) ∧
    6 ≤ 6 := ⟨⟨rfl, rfl⟩, by decide⟩

/-- Both branches of the segment-index statement: digit 9 and digit 10. -/
theorem witness_SegmentIndexSevenFaults : Ready State.reset (Instance.fresh 1) ∧ 15 ≤ 15 ∧
    faultOf (exec (.segTest 7 9) State.reset) = some ⟨.segIndexRange, 7⟩ ∧
    faultOf (exec (.segTest 7 10) State.reset) = some ⟨.digitRange, 10⟩ := ⟨⟨rfl, rfl⟩, by decide⟩

theorem witness_NibEncReturnsBits : Ready State.reset (Instance.fresh 1) ∧ 15 ≤ 15 := ⟨⟨rfl, rfl⟩, by decide⟩

theorem witness_NibDecReturnsDigit : Ready State.reset (Instance.fresh 1) ∧ (⟨.one, .one, .na, .one⟩ : Nibble).b2 = .na ∧
    (⟨.one, .one, .one, .one⟩ : Nibble) =
      ⟨if (15 : BitVec 4).getLsbD 0 then .one else .zero, if (15 : BitVec 4).getLsbD 1 then .one else .zero,
        if (15 : BitVec 4).getLsbD 2 then .one else .zero, if (15 : BitVec 4).getLsbD 3 then .one else .zero⟩ :=
  ⟨⟨rfl, rfl⟩, by decide⟩

theorem witness_CacheLegal_fresh : CacheLegal (Instance.fresh 1).cache := .inl rfl

theorem witness_CacheLegal_255 : CacheLegal (pack ⟨5, 5, 2⟩) := .inr ⟨255, by decide, rfl⟩

/-- The premises of RenderReturnsPatterns and RepeatedRendersAgree, with an evaluated cache. -/
theorem witness_RenderReturnsPatterns : Ready (holding 1 (pack ⟨5, 5, 2⟩)) ⟨pack ⟨5, 5, 2⟩, none, 1⟩ ∧
    LutIntact (holding 1 (pack ⟨5, 5, 2⟩)) ∧ CacheLegal (pack ⟨5, 5, 2⟩) := ⟨⟨rfl, rfl⟩, rfl, witness_CacheLegal_255⟩

theorem witness_RenderBeforeEvalShowsZeros : Ready State.reset (Instance.fresh 1) ∧ LutIntact State.reset ∧
    (Instance.fresh 1).cache = ⟨⟨.na, .na, .na, .na⟩, ⟨.na, .na, .na, .na⟩, ⟨.na, .na, .na, .na⟩⟩ := ⟨⟨rfl, rfl⟩, rfl, rfl⟩

theorem witness_RenderAfterEval : Ready State.reset (Instance.fresh 1) ∧ LutIntact State.reset ∧ ((208 : BitVec 8).toNat % 10, 0x3F) ∈ displayTable ∧
    ((208 : BitVec 8).toNat / 10 % 10, 0x3F) ∈ displayTable ∧ ((208 : BitVec 8).toNat / 100, 0x5B) ∈ displayTable :=
  ⟨⟨rfl, rfl⟩, rfl, by decide⟩

/-- A position 10 or above in each clause of the bad-position statement. -/
theorem witness_RenderReportsLowestBadPosition_premises : Ready (holding 1 (pack ⟨9, 9, 10⟩)) ⟨pack ⟨9, 9, 10⟩, none, 1⟩ ∧
    9 < instanceDigit ⟨pack ⟨10, 15, 15⟩, none, 1⟩ .ones ∧ 9 < instanceDigit ⟨pack ⟨9, 10, 15⟩, none, 1⟩ .tens ∧
    9 < instanceDigit ⟨pack ⟨9, 9, 10⟩, none, 1⟩ .hundreds := ⟨⟨rfl, rfl⟩, by decide⟩

/-- The three clauses of the bad-position statement. -/
theorem witness_RenderReportsLowestBadPosition :
    faultOf (exec .render (holding 1 (pack ⟨10, 15, 15⟩))) = some ⟨.digitRange, 0⟩ ∧
    faultOf (exec .render (holding 1 (pack ⟨9, 10, 15⟩))) = some ⟨.digitRange, 1⟩ ∧
    faultOf (exec .render (holding 1 (pack ⟨9, 9, 10⟩))) = some ⟨.digitRange, 2⟩ := by decide

theorem witness_ComputingOperationsFrame : (nextOf (exec .render State.reset)).isSome = true ∧
    (nextOf (exec (.segLookup 12) State.reset)).isSome = true := by decide

theorem witness_EvalFrame : (nextOf (exec (.eval (.word 0)) State.reset)).isSome = true ∧
    (nextOf (exec (.eval (.lines bothBad)) (State.resetWith 2))).isSome = true := by decide

theorem witness_RomIsNeverWritten : (nextOf (step (State.reset.withFetchWord 16 0x1FF))).isSome = true ∧
    State.reset.lut.wf = true := by decide

/-- A request for instance 1, and an INIT, beside instance 0. -/
theorem witness_OtherInstancesUntouched :
    (nextOf (step { asking State.reset 1 (.word 0x1FF) with
      instances := [Instance.fresh 1, Instance.fresh 1] })).isSome = true ∧
    (nextOf (step (asking faulted 0 (.word 0x000)))).isSome = true ∧ fetch (.word 0x000) = .ok .init := by decide

theorem witness_InstancePersists : Cell.na ∉ cacheCells (pack ⟨5, 0, 0⟩) ∧
    (nextOf (step (asking faulted 0 (.term .init)))).isSome = true ∧ faulted.instances[0]?.isSome = true := by decide

theorem witness_FaultedInstanceHasNoStep :
    faulted.addressed = some ⟨pack ⟨5, 0, 0⟩, some ⟨.digitRange, 12⟩, 1⟩ ∧ Instr.render.wellFormed 1 = true ∧
    exec .render faulted = .fault (.quiescent ⟨.digitRange, 12⟩) := ⟨rfl, rfl, rfl⟩

theorem witness_FaultIsNeverCleared : ∃ t, Host.Core.run Sys2Proof.core 1 (asking faulted 0 (.term .init)) = .next t :=
  ⟨_, rfl⟩

theorem witness_UnconstructedInstanceIsRefused : (State.beforeInit 1).instances.length ≤ (State.beforeInit 1).target ∧
    exec .render (State.beforeInit 1) = .refused (.unconstructed 0) := ⟨by decide, rfl⟩

theorem witness_DecodeOfEncode : (Instr.segTest 7 15).wellFormed 1 = true ∧ (Instr.segTest 7 15).hasWord = true := by decide

theorem witness_EncodeOfDecode : decode 0x8AA = .ok (.nibDec ⟨.na, .na, .na, .na⟩) := by decide

theorem witness_WidthRefused : (State.resetWith 2).addressed = some (Instance.fresh 2) ∧
    (Instr.convert 256).wellFormed 2 = false ∧ (Instr.convert 255).wellFormed 2 = true := ⟨rfl, by decide⟩

theorem witness_StepPerformsOldestRequest :
    State.reset.requests = [] ∧ (asking State.reset 0 (.term .render)).requests = [⟨0, Wiring.uniform 1, .term .render⟩] ∧
    decode 0x200 = .ok .render ∧ step (asking State.reset 0 (.word 0x9FF)) = .refused (.illegalWord (.reservedTag 9)) :=
  ⟨rfl, rfl, by decide, rfl⟩

/-- A legal state that is not the reset state, and a step it makes. -/
theorem witness_StepKeepsLegal : Legal (asking (holding 1 (pack ⟨5, 5, 2⟩)) 0 (.word 0x50F)) ∧
    (nextOf (step (asking (holding 1 (pack ⟨5, 5, 2⟩)) 0 (.word 0x50F)))).isSome = true := by
  refine ⟨⟨rfl, ?_⟩, by decide⟩
  intro inst h
  simp only [asking, holding, List.mem_singleton] at h
  subst h
  exact ⟨by decide, witness_CacheLegal_255, fun f hf => by cases hf⟩

theorem witness_OperationSeesOnlyItsInstance : State.reset.addressed = (asking State.reset 3 (.term .init)).addressed ∧
    State.reset.lut = (asking State.reset 3 (.term .init)).lut ∧
    (nextOf (exec (.convert 9) State.reset)).isSome = true := ⟨rfl, rfl, rfl⟩

/-- A construction beside an EVAL on the instance that exists. -/
theorem witness_OrderAcrossInstances_init : 0 < State.reset.instances.length ∧ ∃ t u,
    exec .init State.reset = .next t ∧ exec (.eval (.word 7)) { t with target := 0 } = .next u := ⟨by decide, _, _, rfl, rfl⟩

theorem witness_BlockOperationsNeverFault : Legal (holding 1 (pack ⟨5, 5, 2⟩)) ∧ Unfaulted (holding 1 (pack ⟨5, 5, 2⟩)) ∧
    (holding 1 (pack ⟨5, 5, 2⟩)).target < (holding 1 (pack ⟨5, 5, 2⟩)).instances.length := by
  refine ⟨⟨rfl, ?_⟩, ?_, by decide⟩ <;> intro inst h <;> simp only [holding, List.mem_singleton] at h <;> subst h
  · exact ⟨by decide, witness_CacheLegal_255, fun f hf => by cases hf⟩
  · rfl

/-- Two instances, an EVAL on one and a fault on the other. -/
theorem witness_OrderAcrossInstances : ∃ t u,
    exec (.eval (.word 7)) { State.reset with instances := [Instance.fresh 1, Instance.fresh 2], target := 0 } = .next t ∧
    exec (.segLookup 15) { t with target := 1 } = .next u := ⟨_, _, rfl, rfl⟩

end Sys2Proof.Tests
end

section
/-!
PROOFS. CONVERT: its next state on a ready instance, and the invariant of its digits (spec 40_bcd_converter.md R64 to R67).
-/

namespace Sys2Proof.Machine

open Sys2Proof

/-- On a ready instance CONVERT completes with the digits of an 8-bit value and writes nothing but the result. -/
theorem exec_convert_of_ready {s : State} {inst : Instance} {v : Nat} (hr : Ready s inst) (hv : v ≤ 255) :
    exec (.convert v) s = .next (s.answer (digitsResult (convert v))) :=
  onAddressed_ready hr ((fits_iff 8 v).mpr (by omega))

theorem convert_ones_le_nine (v : Nat) : (convert v).ones ≤ 9 := by
  rw [convert_ones]
  omega

theorem convert_tens_le_nine (v : Nat) : (convert v).tens ≤ 9 := by
  rw [convert_tens]
  omega

theorem convert_hundreds_le_nine (v : Nat) : (convert v).hundreds ≤ 9 := by
  rw [convert_hundreds]
  omega

/-- Three decimal digits spell every value they can hold; R66 says what is lost above. -/
theorem convert_digits_sum {v : Nat} (h : v < 1000) :
    (convert v).ones + 10 * (convert v).tens + 100 * (convert v).hundreds = v := by
  rw [convert_ones, convert_tens, convert_hundreds]
  omega

/-- A decimal digit survives being carried in 4 bits. -/
theorem toNat_ofNat_digit {d : Nat} (h : d ≤ 9) : (BitVec.ofNat 4 d).toNat = d := by
  rw [BitVec.toNat_ofNat]
  exact Nat.mod_eq_of_lt (by omega)

/-- Settles O7: the digits are those of `convert`, and none of them is cut off by its 4 bits. -/
theorem convertDigitsSumToValue : Obligations.ConvertDigitsSumToValue := by
  intro s inst v hr hv
  refine ⟨_, _, _, exec_convert_of_ready hr hv, ?_⟩
  rw [toNat_ofNat_digit (convert_ones_le_nine v), toNat_ofNat_digit (convert_tens_le_nine v),
    toNat_ofNat_digit (convert_hundreds_le_nine v)]
  exact ⟨convert_digits_sum (by omega), convert_ones_le_nine v, convert_tens_le_nine v, convert_hundreds_le_nine v⟩

/-- Settles O10: the result is a function of the operand alone. -/
theorem convertReadsAndWritesNoState : Obligations.ConvertReadsAndWritesNoState := by
  intro s s' inst inst' v hr hr' hv
  exact ⟨digitsResult (convert v), exec_convert_of_ready hr hv, exec_convert_of_ready hr' hv⟩

end Sys2Proof.Machine
end

section
/-!
PROOFS. Every operation but INIT as one guard and one effect on its instance (spec 30_encoding.md R59, 60_exceptions.md R102
to R105), and the statements about who is refused, who has no step, and what an operation can see.
-/

namespace Sys2Proof.Machine

open Sys2Proof

/-! ### Effects -/

/-- The three ways an operation other than INIT can end: it writes the cache, takes a fault, or returns a result. -/
inductive Effect where
  | cache (c : Cache)
  | fault (f : FaultRecord)
  | result (r : Result)

/-- How an operation that only computes ends. -/
def Effect.ofComputed : Except FaultRecord Result → Effect
  | .ok r => .result r
  | .error f => .fault f

/-- How EVAL ends, by the value of its lines (R86). -/
def Effect.ofAssembled : Except FaultRecord Nat → Effect
  | .ok v => .cache (pack (convert v))
  | .error f => .fault f

/-- The instance after the effect. -/
def Effect.on (inst : Instance) : Effect → Instance
  | .cache c => { inst with cache := c }
  | .fault f => { inst with fault := some f }
  | .result _ => inst

/-- What the host gets back. -/
def Effect.returned : Effect → Option Result
  | .cache _ => none
  | .fault _ => none
  | .result r => some r

/-- The state after the effect on the addressed instance `inst`. -/
def State.apply (s : State) (inst : Instance) : Effect → State
  | .cache c => s.writeCache inst c
  | .fault f => s.raiseFault inst f
  | .result r => s.answer r

/-- What an operation does to its instance, read from the ROM and that instance alone (R30, R44). INIT addresses no instance;
its row is never used (`exec_guarded`). -/
def effect (i : Instr) (m : Memory) (inst : Instance) : Effect :=
  match i with
  | .init => .result (.constructed 0)
  | .eval inp => .ofAssembled (assembleOperand inp inst)
  | .render => .ofComputed (renderPatterns m inst.cache)
  | .inAssemble inp => .ofComputed ((assembleOperand inp inst).map fun v => .value (BitVec.ofNat 8 v))
  | .convert v => .result (digitsResult (convert v))
  | .segLookup d => .ofComputed ((segLookup m d).map .pattern)
  | .segTest seg d => .ofComputed ((segTest m seg d).map .lit)
  | .nibEnc d => .result (.nibble (nibEnc d))
  | .nibDec b => .result (.digit (BitVec.ofNat 4 (nibDec b)))

section Apply

variable (s : State) (inst : Instance) (e : Effect)

@[simp] theorem on_wLine : (e.on inst).wLine = inst.wLine := by cases e <;> rfl

@[simp] theorem apply_lut : (s.apply inst e).lut = s.lut := by cases e <;> rfl
@[simp] theorem apply_requests : (s.apply inst e).requests = s.requests := by cases e <;> rfl
@[simp] theorem apply_target : (s.apply inst e).target = s.target := by cases e <;> rfl
@[simp] theorem apply_wiring : (s.apply inst e).wiring = s.wiring := by cases e <;> rfl
@[simp] theorem apply_returned : (s.apply inst e).returned = e.returned := by cases e <;> rfl

variable {s inst}

/-- An effect replaces the addressed instance and nothing else. -/
theorem apply_instances (h : s.addressed = some inst) :
    (s.apply inst e).instances = s.instances.set s.target (e.on inst) := by
  cases e with
  | cache c => rfl
  | fault f => rfl
  | result r => exact (congrArg State.instances (withAddressed_self h)).symm

theorem apply_addressed (h : s.addressed = some inst) : (s.apply inst e).addressed = some (e.on inst) := by
  have := withAddressed_addressed s h (e.on inst)
  rwa [State.addressed, apply_instances e h, apply_target]

theorem apply_other (h : s.addressed = some inst) {k : Nat} (hk : k ≠ s.target) :
    (s.apply inst e).instances[k]? = s.instances[k]? := by
  rw [apply_instances e h, List.getElem?_set_ne hk.symm]

end Apply

/-! ### The guard -/

theorem linesFit_eq_wellFormed (inp : LineOperand) (inst : Instance) : linesFit inp inst = inp.wellFormed inst.wLine := by
  have line : lineFits inst.wLine = LineValue.wellFormed inst.wLine := by
    funext l
    cases l <;> rfl
  cases inp with
  | word v => rfl
  | lines ls => rw [linesFit, line]; rfl

theorem finish_eq_apply (s : State) (inst : Instance) (x : Except FaultRecord Result) :
    finish s inst x = .next (s.apply inst (.ofComputed x)) := by
  cases x <;> rfl

theorem execEval_eq_apply (inp : LineOperand) (s : State) :
    execEval inp s = onAddressed (linesFit inp) s fun inst =>
      .next (s.apply inst (.ofAssembled (assembleOperand inp inst))) := by
  unfold execEval
  congr
  funext inst
  cases assembleOperand inp inst <;> rfl

/-- Every operation but INIT: the width check is the syntactic one, and the meaning is its effect. -/
theorem exec_guarded {i : Instr} (hi : i ≠ .init) (s : State) :
    exec i s = onAddressed (fun inst => i.wellFormed inst.wLine) s
      fun inst => .next (s.apply inst (effect i s.lut inst)) := by
  cases i with
  | init => exact absurd rfl hi
  | eval inp =>
    simp only [exec, execEval_eq_apply, funext (linesFit_eq_wellFormed inp)]
    rfl
  | inAssemble inp =>
    simp only [exec, execInAssemble, finish_eq_apply, funext (linesFit_eq_wellFormed inp)]
    rfl
  | render | convert | segLookup | segTest | nibEnc | nibDec =>
    simp only [exec, execRender, execConvert, execSegLookup, execSegTest, execNibEnc, execNibDec, finish_eq_apply]
    rfl

/-- On a ready instance a well-formed operation completes with its effect. -/
theorem exec_of_ready {i : Instr} {s : State} {inst : Instance} (hi : i ≠ .init) (hr : Ready s inst)
    (hw : i.wellFormed inst.wLine = true) : exec i s = .next (s.apply inst (effect i s.lut inst)) := by
  rw [exec_guarded hi, onAddressed_ready hr hw]

/-- A next state of an operation other than INIT is its effect on a ready instance. -/
theorem exec_next_effect {i : Instr} {s t : State} (hi : i ≠ .init) (h : exec i s = .next t) :
    ∃ inst, Ready s inst ∧ i.wellFormed inst.wLine = true ∧ t = s.apply inst (effect i s.lut inst) := by
  rw [exec_guarded hi] at h
  obtain ⟨inst, hr, hw, ht⟩ := onAddressed_next h
  injection ht with ht
  exact ⟨inst, hr, hw, ht.symm⟩

/-- A next state of INIT is a construction with an accepted wiring. -/
theorem exec_init_next {s t : State} (h : exec .init s = .next t) :
    wiringOk s.wiring = true ∧ t = s.construct s.wiring.wLine := by
  simp only [exec, execInit] at h
  split at h
  · next hw => exact ⟨hw, by injection h with h; exact h.symm⟩
  · cases h

theorem exec_init_of_wiringOk {s : State} (h : wiringOk s.wiring = true) :
    exec .init s = .next (s.construct s.wiring.wLine) := if_pos h

/-! ### Refusals and stops -/

/-- Settles O38: the guard looks for the instance before it looks at the operands. -/
theorem unconstructedInstanceIsRefused : Obligations.UnconstructedInstanceIsRefused := by
  intro i s hlen hi
  have ha : s.addressed = none := List.getElem?_eq_none hlen
  rw [exec_guarded hi, onAddressed, ha]

/-- Settles O36: past the width check the guard stops at the fault field. -/
theorem faultedInstanceHasNoStep : Obligations.FaultedInstanceHasNoStep := by
  intro i s inst f ha hf hi hw
  rw [exec_guarded hi]
  simp [onAddressed, ha, hf, hw]

/-- Settles O39: the width check is the well-formedness check, and no effect is a refusal. INIT has no operand, and its
refusal has another name. -/
theorem widthRefusedExactlyWhenIllFormed : Obligations.WidthRefusedExactlyWhenIllFormed := by
  intro i s inst ha
  by_cases hi : i = .init
  · subst hi
    simp only [exec, execInit, Instr.wellFormed, Bool.true_eq_false, iff_false]
    split <;> simp
  rw [exec_guarded hi]
  rcases hw : i.wellFormed inst.wLine
  · simp [onAddressed, ha, hw]
  · rcases hf : inst.fault <;> simp [onAddressed, ha, hw, hf]

/-- Settles O48: the guard reads the addressed instance, and the effect that instance and the ROM. -/
theorem operationSeesOnlyItsInstance : Obligations.OperationSeesOnlyItsInstance := by
  intro i s s' t hi ha hl h
  obtain ⟨inst, hr, hw, rfl⟩ := exec_next_effect hi h
  have ha' : s'.addressed = some inst := ha ▸ hr.1
  refine ⟨_, exec_of_ready hi ⟨ha', hr.2⟩ hw, ?_, ?_⟩
  · rw [apply_addressed _ ha', apply_addressed _ hr.1, hl]
  · rw [apply_returned, apply_returned, hl]

end Sys2Proof.Machine
end

section
/-!
PROOFS. What an operation, a step and a run leave unchanged (spec 10_state.md R30, 20_memory.md R36 to R44,
43_block_operations.md R96, 60_exceptions.md R102, R103).
-/

namespace Sys2Proof.Machine

open Sys2Proof

/-! ### Which effects an operation can have -/

theorem ofComputed_ne_cache (x : Except FaultRecord Result) (c : Cache) : Effect.ofComputed x ≠ .cache c := by
  cases x <;> simp [Effect.ofComputed]

/-- Only EVAL writes the cache, and it writes the conversion of its lines' value. -/
theorem effect_eq_cache {i : Instr} {m : Memory} {inst : Instance} {c : Cache} (h : effect i m inst = .cache c) :
    ∃ inp v, i = .eval inp ∧ assembleOperand inp inst = .ok v ∧ c = pack (convert v) := by
  cases i with
  | eval inp =>
    simp only [effect] at h
    cases hx : assembleOperand inp inst with
    | ok v =>
      rw [hx, Effect.ofAssembled] at h
      injection h with h
      exact ⟨inp, v, rfl, hx, h.symm⟩
    | error f => rw [hx] at h; cases h
  | render | inAssemble | segLookup | segTest => exact absurd h (ofComputed_ne_cache _ c)
  | init | convert | nibEnc | nibDec => cases h

/-- No effect takes the availability of the cells away (R29). -/
theorem evaluated_on {i : Instr} {m : Memory} {inst : Instance} (h : Evaluated inst) :
    Evaluated ((effect i m inst).on inst) := by
  cases he : effect i m inst with
  | cache c =>
    obtain ⟨_, v, -, -, rfl⟩ := effect_eq_cache he
    exact na_not_mem_pack (convert v)
  | fault f => exact h
  | result r => exact h

/-! ### One operation -/

/-- An operation leaves every instance but its own, and INIT every instance. -/
theorem exec_other {i : Instr} {s t : State} {k : Nat} {inst : Instance} (h : exec i s = .next t)
    (hk : s.instances[k]? = some inst) (ho : k ≠ s.target ∨ i = .init) : t.instances[k]? = some inst := by
  by_cases hi : i = .init
  · subst hi
    obtain ⟨-, rfl⟩ := exec_init_next h
    exact construct_old s _ hk
  · obtain ⟨a, hr, -, rfl⟩ := exec_next_effect hi h
    rw [apply_other _ hr.1 (ho.resolve_right hi), hk]

/-- What an operation leaves of any instance. -/
theorem exec_persists {i : Instr} {s t : State} {k : Nat} {inst : Instance} (h : exec i s = .next t)
    (hk : s.instances[k]? = some inst) : ∃ inst', t.instances[k]? = some inst' ∧ inst'.wLine = inst.wLine ∧
      (Evaluated inst → Evaluated inst') ∧ (inst.fault ≠ none → inst' = inst) := by
  by_cases ho : k ≠ s.target ∨ i = .init
  · exact ⟨inst, exec_other h hk ho, rfl, id, fun _ => rfl⟩
  · obtain ⟨rfl, hi⟩ : k = s.target ∧ i ≠ .init := by simpa using ho
    obtain ⟨a, hr, -, rfl⟩ := exec_next_effect hi h
    obtain rfl : a = inst := Option.some.inj (hr.1.symm.trans hk)
    have ht := apply_addressed (effect i s.lut a) hr.1
    rw [State.addressed, apply_target] at ht
    exact ⟨_, ht, on_wLine a _, evaluated_on, fun hf => absurd hr.2 hf⟩

/-- The frame of an operation other than INIT: only the addressed instance and the result are written. -/
theorem exec_frame {i : Instr} {s t : State} (hi : i ≠ .init) (h : exec i s = .next t) :
    t.requests = s.requests ∧ t.target = s.target ∧ t.wiring = s.wiring ∧ (∀ d, t.lut.read d = s.lut.read d) ∧
    t.instances.length = s.instances.length ∧ ∀ k, k ≠ s.target → t.instances[k]? = s.instances[k]? := by
  obtain ⟨inst, hr, -, rfl⟩ := exec_next_effect hi h
  refine ⟨apply_requests .., apply_target .., apply_wiring .., fun d => by rw [apply_lut], ?_, ?_⟩
  · rw [apply_instances _ hr.1, List.length_set]
  · exact fun k hk => apply_other _ hr.1 hk

/-- Settles O31: without a cache write, an effect is a fault that returns nothing or a result that leaves the instance. -/
theorem computingOperationsFrame : Obligations.ComputingOperationsFrame := by
  intro i s t hi hev h
  obtain ⟨hq, htg, hwi, hl, hlen, ho⟩ := exec_frame hi h
  refine ⟨hq, htg, hwi, hl, hlen, ho, ?_⟩
  obtain ⟨inst, hr, -, rfl⟩ := exec_next_effect hi h
  refine ⟨inst, _, hr, apply_addressed _ hr.1, ?_⟩
  rw [apply_returned]
  cases he : effect i s.lut inst with
  | cache c =>
    obtain ⟨inp, _, hinp, -, -⟩ := effect_eq_cache he
    exact absurd hinp (hev inp)
  | fault f => exact ⟨rfl, rfl, .inr ⟨Option.some_ne_none f, rfl⟩⟩
  | result r => exact ⟨rfl, rfl, .inl ⟨hr.2, Option.some_ne_none r⟩⟩

/-- A next state of EVAL is a cache write or a fault, by the value of its lines. -/
theorem exec_eval_next {inp : LineOperand} {s t : State} (h : exec (.eval inp) s = .next t) :
    ∃ inst, Ready s inst ∧ linesFit inp inst = true ∧
      ((∃ v, assembleOperand inp inst = .ok v ∧ t = s.writeCache inst (pack (convert v))) ∨
        ∃ f, assembleOperand inp inst = .error f ∧ t = s.raiseFault inst f) := by
  obtain ⟨inst, hr, hw, rfl⟩ := exec_next_effect (i := .eval inp) nofun h
  refine ⟨inst, hr, (linesFit_eq_wellFormed inp inst).trans hw, ?_⟩
  rw [effect]
  cases assembleOperand inp inst with
  | ok v => exact .inl ⟨v, rfl, rfl⟩
  | error f => exact .inr ⟨f, rfl, rfl⟩

/-- Settles O32: the two ways EVAL ends. -/
theorem evalFrame : Obligations.EvalFrame := by
  intro inp s t h
  obtain ⟨hq, htg, hwi, hl, hlen, ho⟩ := exec_frame (i := .eval inp) nofun h
  obtain ⟨inst, hr, -, ⟨v, -, rfl⟩ | ⟨f, -, rfl⟩⟩ := exec_eval_next h
  · exact ⟨hq, htg, hwi, hl, rfl, hlen, ho, inst, _, hr, writeCache_addressed s hr.1 _, rfl,
      .inl ⟨hr.2, na_not_mem_pack (convert v)⟩⟩
  · exact ⟨hq, htg, hwi, hl, rfl, hlen, ho, inst, _, hr, raiseFault_addressed s hr.1 _, rfl,
      .inr ⟨Option.some_ne_none f, rfl⟩⟩

/-! ### One step -/

/-- Settles O45: the four outcomes of the step's two matches. -/
theorem stepPerformsOldestRequest : Obligations.StepPerformsOldestRequest := by
  intro s rest k wiring
  refine ⟨fun hq => ?_, fun i hq => ?_, fun w i hq hd => ?_, fun w e hq hd => ?_⟩
  · simp only [step, hq]
  · simp only [step, hq, fetch, State.present]
  · simp only [step, hq, fetch, hd, State.present]
  · simp only [step, hq, fetch, hd]

/-- Settles O33: a step idles or performs an operation, and no operation writes the ROM. -/
theorem romIsNeverWritten : Obligations.RomIsNeverWritten := by
  intro s t h
  have hl : t.lut = s.lut := by
    rcases step_next h with ⟨-, rfl⟩ | ⟨r, rest, i, -, -, he⟩
    · rfl
    · rw [exec_lut he, present_lut]
  rw [hl]
  exact ⟨fun _ => rfl, id⟩

/-- Settles O34: the request is performed on its own target. -/
theorem otherInstancesUntouched : Obligations.OtherInstancesUntouched := by
  intro s t k inst r rest h hq hk ho
  rcases step_next h with ⟨hq', -⟩ | ⟨r', rest', i, hq', hf, he⟩
  · simp [hq'] at hq
  · obtain ⟨rfl, rfl⟩ : r' = r ∧ rest' = rest := by simpa [hq'] using hq
    have hi : fetch r'.op = .ok .init → i = .init := fun h => Except.ok.inj (hf.symm.trans h)
    exact exec_other he hk (ho.imp_right hi)

/-- Settles O35: a step idles or performs an operation on the same instances. -/
theorem instancePersists : Obligations.InstancePersists := by
  intro s t k inst h hk
  rcases step_next h with ⟨-, rfl⟩ | ⟨r, rest, i, -, -, he⟩
  · exact ⟨inst, hk, rfl, id, fun _ => rfl⟩
  · exact exec_persists he hk

/-! ### Runs and orders -/

/-- Settles O37, by induction on the length of the run: `instancePersists` carries the faulted instance over each step. -/
theorem faultIsNeverCleared : Obligations.FaultIsNeverCleared := by
  intro n
  induction n with
  | zero =>
    intro s t k inst f hk hf h
    injection h with h
    exact h ▸ hk
  | succ n ih =>
    intro s t k inst f hk hf h
    obtain ⟨s', hs, hrun⟩ := next_of_core_run h
    obtain ⟨inst', hk', -, -, hkeep⟩ := instancePersists s s' k inst hs hk
    obtain rfl : inst' = inst := hkeep (by simp [hf])
    exact ih s' t k inst' f hk' hf hrun

/-- An operation on another instance leaves an instance as ready as it was. -/
theorem ready_after_other {s : State} {a b : Instance} {k l : Nat} (e : Effect) (ha : Ready { s with target := k } a)
    (hlk : l ≠ k) :
    Ready { State.apply { s with target := k } a e with target := l } b ↔ Ready { s with target := l } b := by
  simp only [Ready, State.addressed, apply_other e ha.1 hlk]

/-- Two operations on different instances commute. -/
theorem exec_comm {i j : Instr} {s t u : State} {k l : Nat} (hi : i ≠ .init) (hj : j ≠ .init) (hkl : k ≠ l)
    (ht : exec i { s with target := k } = .next t) (hu : exec j { t with target := l } = .next u) :
    ∃ t' u', exec j { s with target := l } = .next t' ∧ exec i { t' with target := k } = .next u' ∧
      u'.instances = u.instances ∧ t'.returned = u.returned ∧ u'.returned = t.returned := by
  obtain ⟨a, ha, hwa, rfl⟩ := exec_next_effect hi ht
  obtain ⟨b, hb, hwb, rfl⟩ := exec_next_effect hj hu
  have hb' := (ready_after_other _ ha hkl.symm).mp hb
  have ha' := (ready_after_other (effect j s.lut b) hb' hkl).mpr ha
  refine ⟨_, _, exec_of_ready hj hb' hwb, exec_of_ready hi ha' hwa, ?_, ?_, ?_⟩
  · rw [apply_instances _ ha'.1, apply_instances _ hb.1, apply_instances _ hb'.1, apply_instances _ ha.1]
    simp only [apply_lut]
    exact List.set_comm _ _ hkl.symm
  · simp only [apply_returned, apply_lut]
  · simp only [apply_returned, apply_lut]

/-- A construction commutes with an operation on an instance that exists. -/
theorem exec_init_comm {j : Instr} {s t u : State} {l : Nat} (hj : j ≠ .init) (hl : l < s.instances.length)
    (ht : exec .init s = .next t) (hu : exec j { t with target := l } = .next u) :
    ∃ t' u', exec j { s with target := l } = .next t' ∧ exec .init t' = .next u' ∧
      u'.instances = u.instances ∧ t'.returned = u.returned ∧ u'.returned = t.returned := by
  obtain ⟨hw, rfl⟩ := exec_init_next ht
  obtain ⟨b, hb, hwb, rfl⟩ := exec_next_effect hj hu
  have hb' : Ready { s with target := l } b := by
    simpa only [Ready, State.addressed, construct_instances, List.getElem?_append_left hl] using hb
  refine ⟨_, _, exec_of_ready hj hb' hwb, exec_init_of_wiringOk (by rwa [apply_wiring]), ?_, ?_, ?_⟩
  · rw [construct_instances, apply_wiring, apply_instances _ hb'.1, apply_instances _ hb.1]
    exact (List.set_append_left l _ hl).symm
  · simp only [apply_returned, construct_lut]
  · rw [construct_returned, construct_returned, apply_instances _ hb'.1, List.length_set]

/-- Settles O49: both orders complete alike, and no operation writes the ROM. -/
theorem orderAcrossInstancesIsUnobservable : Obligations.OrderAcrossInstancesIsUnobservable := by
  refine And.intro (fun i j s t u k l hi hj hkl ht hu => ?_) fun j s t u l hj hl ht hu => ?_
  · obtain ⟨t', u', ht', hu', hinst, hret, hret'⟩ := exec_comm hi hj hkl ht hu
    exact ⟨t', u', ht', hu', hinst, hret, hret', fun d =>
      ⟨by rw [exec_lut hu, exec_lut ht], by rw [exec_lut hu', exec_lut ht']⟩⟩
  · obtain ⟨t', u', ht', hu', hinst, hret, hret'⟩ := exec_init_comm hj hl ht hu
    exact ⟨t', u', ht', hu', hinst, hret, hret', fun d =>
      ⟨by rw [exec_lut hu, exec_lut ht], by rw [exec_lut hu', exec_lut ht']⟩⟩

end Sys2Proof.Machine
end

section
/-!
PROOFS. Operation words: a word decodes to a term exactly when it spells it, and encoding is the same relation read the
other way (spec 30_encoding.md R54, R55, R58, R60).
-/

namespace Sys2Proof

/-! ### Fields of a word -/

/-- Masking `len` bits from `lo` up leaves that field, in its place. -/
theorem and_mask_eq_field (n lo len : Nat) : n &&& (2 ^ len - 1) * 2 ^ lo = n / 2 ^ lo % 2 ^ len * 2 ^ lo := by
  apply Nat.eq_of_testBit_eq
  intro k
  simp only [Nat.testBit_and, Nat.testBit_mul_two_pow, Nat.testBit_two_pow_sub_one, Nat.testBit_mod_two_pow,
    Nat.testBit_div_two_pow]
  by_cases h : lo ≤ k
  · simp [h, Bool.and_comm]
  · simp [h]

/-- A mask and a match of spec/opcode_table.json ask for the value of one field. -/
theorem mask_match (w : OpWord) (lo len m : Nat) :
    w.toNat &&& (2 ^ len - 1) * 2 ^ lo = m * 2 ^ lo ↔ fieldOf w lo len = m := by
  rw [and_mask_eq_field, fieldOf, Nat.mul_left_inj (by positivity)]

/-- A tag above padding down to bit `lo` is one field. -/
theorem tag_padding_match (w : OpWord) {lo len : Nat} (h : lo + len = 8) (tag : Nat) :
    fieldOf w 8 4 = tag ∧ fieldOf w lo len = 0 ↔
      w.toNat &&& (2 ^ (len + 4) - 1) * 2 ^ lo = tag * 2 ^ len * 2 ^ lo := by
  have hdiv : w.toNat / 2 ^ 8 = w.toNat / 2 ^ lo / 2 ^ len := by rw [Nat.div_div_eq_div_mul, ← Nat.pow_add, h]
  have hpos : 0 < 2 ^ len := by positivity
  have hsplit := Nat.div_mod_unique (a := w.toNat / 2 ^ lo % (2 ^ len * 2 ^ 4)) (c := 0) (d := tag) hpos
  rw [Nat.mod_mul_right_div_self, Nat.mod_mul_right_mod, ← hdiv] at hsplit
  rw [mask_match, fieldOf, fieldOf, fieldOf, hsplit, Nat.pow_add, Nat.zero_add, and_iff_left hpos, Nat.mul_comm tag]
  exact eq_comm

/-- A cell code other than 11, as the table's condition on NIB_DEC words. -/
theorem cell_code_match (w : OpWord) (lo : Nat) : fieldOf w lo 2 < 3 ↔ w.toNat &&& 3 * 2 ^ lo ≠ 3 * 2 ^ lo := by
  refine Iff.trans ?_ (mask_match w lo 2 3).not.symm
  rw [fieldOf]
  omega

theorem wordOf_toNat {tag operands : Nat} (ht : tag < 16) (ho : operands < 256) :
    (wordOf tag operands).toNat = tag * 256 + operands := by
  rw [wordOf, BitVec.toNat_ofNat]
  omega

/-- A word is its tag and its operand field. -/
theorem wordOf_eq_iff {tag operands : Nat} (ht : tag < 16) (ho : operands < 256) (w : OpWord) :
    wordOf tag operands = w ↔ fieldOf w 8 4 = tag ∧ fieldOf w 0 8 = operands := by
  have := w.isLt
  rw [← BitVec.toNat_inj, wordOf_toNat ht ho]
  simp only [fieldOf]
  omega

/-- The same for a word that is there only when the operands pass a check. -/
theorem checked_wordOf_eq_some_iff {tag operands : Nat} {P : Prop} [Decidable P] (ht : tag < 16)
    (ho : P → operands < 256) (w : OpWord) : (if P then some (wordOf tag operands) else none) = some w ↔
      P ∧ fieldOf w 8 4 = tag ∧ fieldOf w 0 8 = operands := by
  rw [Option.ite_none_right_eq_some, Option.some.injEq, and_congr_right fun h => wordOf_eq_iff ht (ho h) w]

theorem cellOfCode_eq_some_iff (n : Nat) (c : Cell) : cellOfCode n = some c ↔ n = codeOfCell c := by
  unfold cellOfCode
  split <;> cases c <;> simp_all [codeOfCell]

theorem codeOfCell_lt (c : Cell) : codeOfCell c < 3 := by cases c <;> decide

theorem encodeCells_lt (b : Nibble) : encodeCells b < 256 := by
  have h0 := codeOfCell_lt b.b0
  have h1 := codeOfCell_lt b.b1
  have h2 := codeOfCell_lt b.b2
  have h3 := codeOfCell_lt b.b3
  rw [encodeCells]
  omega

theorem decodeCells_eq_some_iff (w : OpWord) (b : Nibble) : decodeCells w = some b ↔
    fieldOf w 0 2 = codeOfCell b.b0 ∧ fieldOf w 2 2 = codeOfCell b.b1 ∧ fieldOf w 4 2 = codeOfCell b.b2 ∧
      fieldOf w 6 2 = codeOfCell b.b3 := by
  obtain ⟨b0, b1, b2, b3⟩ := b
  simp only [← cellOfCode_eq_some_iff]
  unfold decodeCells
  split
  · simp_all
  · next hnone =>
    constructor
    · exact nofun
    · rintro ⟨h0, h1, h2, h3⟩
      exact absurd h3 (hnone _ _ _ _ h0 h1 h2)

/-- A cell code names a cell unless it is 11. -/
theorem cellOfCode_isSome (n : Nat) : (∃ c, cellOfCode n = some c) ↔ n < 3 := by
  simp only [cellOfCode_eq_some_iff]
  constructor
  · rintro ⟨c, rfl⟩
    exact codeOfCell_lt c
  · intro h
    interval_cases n
    exacts [⟨.zero, rfl⟩, ⟨.one, rfl⟩, ⟨.na, rfl⟩]

theorem decodeCells_isSome (w : OpWord) : (∃ b, decodeCells w = some b) ↔
    fieldOf w 6 2 < 3 ∧ fieldOf w 4 2 < 3 ∧ fieldOf w 2 2 < 3 ∧ fieldOf w 0 2 < 3 := by
  simp only [decodeCells_eq_some_iff, ← cellOfCode_isSome, cellOfCode_eq_some_iff]
  constructor
  · rintro ⟨b, h0, h1, h2, h3⟩
    exact ⟨⟨_, h3⟩, ⟨_, h2⟩, ⟨_, h1⟩, ⟨_, h0⟩⟩
  · rintro ⟨⟨b3, h3⟩, ⟨b2, h2⟩, ⟨b1, h1⟩, ⟨b0, h0⟩⟩
    exact ⟨⟨b0, b1, b2, b3⟩, h0, h1, h2, h3⟩

/-! ### The table of R54 as a relation -/

/-- The word carries the term, by the term's row of R54. -/
def Carries (w : OpWord) : Instr → Prop
  | .init => fieldOf w 8 4 = 0 ∧ fieldOf w 0 8 = 0
  | .eval inp => fieldOf w 8 4 = 1 ∧ inp = .word (w.setWidth 8)
  | .render => fieldOf w 8 4 = 2 ∧ fieldOf w 0 8 = 0
  | .inAssemble inp => fieldOf w 8 4 = 3 ∧ inp = .word (w.setWidth 8)
  | .convert v => fieldOf w 8 4 = 4 ∧ fieldOf w 0 8 = v
  | .segLookup d => fieldOf w 8 4 = 5 ∧ fieldOf w 4 4 = 0 ∧ fieldOf w 0 4 = d
  | .segTest s d => fieldOf w 8 4 = 6 ∧ fieldOf w 7 1 = 0 ∧ fieldOf w 4 3 = s ∧ fieldOf w 0 4 = d
  | .nibEnc d => fieldOf w 8 4 = 7 ∧ fieldOf w 4 4 = 0 ∧ fieldOf w 0 4 = d
  | .nibDec b => fieldOf w 8 4 = 8 ∧ decodeCells w = some b

theorem withPadding_eq_ok_iff (w : OpWord) (lo len : Nat) (i j : Instr) :
    withPadding w lo len i = .ok j ↔ fieldOf w lo len = 0 ∧ i = j := by
  rw [withPadding]
  split <;> simp_all

/-- A word decodes to a term exactly when it carries it. -/
theorem decode_eq_ok_iff (w : OpWord) (i : Instr) : decode w = .ok i ↔ Carries w i := by
  constructor
  · intro h
    unfold decode at h
    split at h
    case h_1 | h_3 | h_6 | h_7 | h_8 =>
      obtain ⟨_, rfl⟩ := (withPadding_eq_ok_iff ..).mp h
      simp_all [Carries]
    case h_2 | h_4 | h_5 =>
      cases h
      simp_all [Carries]
    case h_9 =>
      split at h <;> cases h
      simp_all [Carries]
    case h_10 => cases h
  · intro h
    cases i <;> simp_all [Carries, decode, withPadding_eq_ok_iff]

theorem setWidth_eq_iff (w : OpWord) (v : BitVec 8) : v = w.setWidth 8 ↔ fieldOf w 0 8 = v.toNat := by
  rw [← BitVec.toNat_inj, BitVec.toNat_setWidth, fieldOf]
  omega

/-- A term is encoded as a word exactly when the word carries it. -/
theorem encode_eq_some_iff (w : OpWord) (i : Instr) : encode i = some w ↔ Carries w i := by
  cases i with
  | init | render => simp [encode, Carries, wordOf_eq_iff]
  | eval inp | inAssemble inp =>
    cases inp with
    | word v => simp [encode, Carries, wordOf_eq_iff, v.isLt, setWidth_eq_iff]
    | lines ls => simp [encode, Carries]
  | convert | segLookup | segTest | nibEnc =>
    rw [encode, checked_wordOf_eq_some_iff (by decide) (by omega)]
    simp only [Carries, fieldOf]
    omega
  | nibDec b =>
    have h0 := codeOfCell_lt b.b0
    have h1 := codeOfCell_lt b.b1
    have h2 := codeOfCell_lt b.b2
    have h3 := codeOfCell_lt b.b3
    simp only [encode, Carries, Option.some.injEq]
    rw [wordOf_eq_iff (by decide) (encodeCells_lt b), decodeCells_eq_some_iff]
    simp only [fieldOf, encodeCells]
    omega

/-- Encoding and decoding are the same relation of words and terms. -/
theorem decode_eq_ok_iff_encode (w : OpWord) (i : Instr) : decode w = .ok i ↔ encode i = some w :=
  (decode_eq_ok_iff w i).trans (encode_eq_some_iff w i).symm

theorem encode_isSome {wLine : Nat} {i : Instr} (hw : i.wellFormed wLine = true) (hh : i.hasWord = true) :
    ∃ w, encode i = some w := by
  cases i with
  | init | render | nibDec => exact ⟨_, rfl⟩
  | eval inp | inAssemble inp =>
    cases inp with
    | word v => exact ⟨_, rfl⟩
    | lines ls => cases hh
  | convert | segLookup | segTest | nibEnc =>
    simp only [Instr.wellFormed, Bool.and_eq_true, decide_eq_true_eq] at hw
    exact ⟨_, if_pos hw⟩

/-- A term that a word carries has operands of their width. -/
theorem wellFormed_of_carries {w : OpWord} {i : Instr} (h : Carries w i) (wLine : Nat) : i.wellFormed wLine = true := by
  cases i with
  | init | render | nibDec => rfl
  | eval inp | inAssemble inp =>
    obtain ⟨-, rfl⟩ := h
    rfl
  | convert | segLookup | segTest | nibEnc =>
    simp only [Carries, fieldOf] at h
    simp only [Instr.wellFormed, Bool.and_eq_true, decide_eq_true_eq]
    omega

/-! ### The statements -/

/-- Settles O41: the term has a word, and a term's word decodes to it. -/
theorem decodeOfEncodeIsTheTerm : Obligations.DecodeOfEncodeIsTheTerm := by
  intro wLine i hw hh
  obtain ⟨w, he⟩ := encode_isSome hw hh
  exact ⟨w, he, (decode_eq_ok_iff_encode w i).mpr he⟩

/-- Settles O42: the same relation, read from the word. -/
theorem encodeOfDecodeIsTheWord : Obligations.EncodeOfDecodeIsTheWord := by
  intro w i h
  exact ⟨(decode_eq_ok_iff_encode w i).mp h, wellFormed_of_carries ((decode_eq_ok_iff w i).mp h)⟩

/-- A word is accepted by its tag, its padding and its cell codes. -/
theorem decode_accepts_iff (w : OpWord) : (∃ i, decode w = .ok i) ↔
    fieldOf w 8 4 = 0 ∧ fieldOf w 0 8 = 0 ∨ fieldOf w 8 4 = 1 ∨ fieldOf w 8 4 = 2 ∧ fieldOf w 0 8 = 0 ∨
    fieldOf w 8 4 = 3 ∨ fieldOf w 8 4 = 4 ∨ fieldOf w 8 4 = 5 ∧ fieldOf w 4 4 = 0 ∨
    fieldOf w 8 4 = 6 ∧ fieldOf w 7 1 = 0 ∨ fieldOf w 8 4 = 7 ∧ fieldOf w 4 4 = 0 ∨
    fieldOf w 8 4 = 8 ∧ ∃ b, decodeCells w = some b := by
  simp only [decode_eq_ok_iff]
  constructor
  · rintro ⟨i, h⟩
    cases i <;> simp only [Carries] at h <;> simp [h]
  · rintro (h | h | h | h | h | h | h | h | ⟨h, b, hb⟩)
    exacts [⟨.init, h⟩, ⟨.eval (.word (w.setWidth 8)), h, rfl⟩, ⟨.render, h⟩,
      ⟨.inAssemble (.word (w.setWidth 8)), h, rfl⟩, ⟨.convert _, h, rfl⟩, ⟨.segLookup _, h.1, h.2, rfl⟩,
      ⟨.segTest _ _, h.1, h.2, rfl, rfl⟩, ⟨.nibEnc _, h.1, h.2, rfl⟩, ⟨.nibDec b, h, hb⟩]

/-- Settles O40: each mask of the table picks the fields that the decoder asks about. -/
theorem decodeAcceptsExactlyTableWords : Obligations.DecodeAcceptsExactlyTableWords := by
  intro w
  have tag (m : Nat) := (mask_match w 8 4 m).symm
  have all (m : Nat) := tag_padding_match w (lo := 0) (len := 8) rfl m
  have high (m : Nat) := tag_padding_match w (lo := 4) (len := 4) rfl m
  have bit7 (m : Nat) := tag_padding_match w (lo := 7) (len := 1) rfl m
  have cells := and_congr (cell_code_match w 6) (and_congr (cell_code_match w 4)
    (and_congr (cell_code_match w 2) (cell_code_match w 0)))
  rw [decode_accepts_iff, decodeCells_isSome]
  exact or_congr (all 0) (or_congr (tag 1) (or_congr (all 2) (or_congr (tag 3) (or_congr (tag 4) (or_congr (high 5)
    (or_congr (bit7 6) (or_congr (high 7) (and_congr (tag 8) cells))))))))

/-- Settles O43: the decoder evaluated on ten words. -/
theorem knownWordsDecode : Obligations.KnownWordsDecode := by
  unfold Obligations.KnownWordsDecode
  decide

/-- Settles O44: the parser evaluated on six lines. -/
theorem textLinesSpellOperations : Obligations.TextLinesSpellOperations := by
  unfold Obligations.TextLinesSpellOperations
  decide

end Sys2Proof
end

section
/-!
PROOFS. The input lines, IN_ASSEMBLE and EVAL (spec 40_bcd_converter.md R63, 43_block_operations.md R86 to R88,
60_exceptions.md R100 to R105).
-/

namespace Sys2Proof.Machine

open Sys2Proof

/-! ### Which line is reported -/

theorem linesFit_of_linesWide {ls : List LineValue} {inst : Instance} (h : LinesWide inst.wLine ls) :
    linesFit (.lines ls) inst = true := by
  obtain ⟨hlen, hls⟩ := h
  simp only [linesFit, Bool.and_eq_true, decide_eq_true_eq, List.all_eq_true]
  refine ⟨hlen, fun l hl => ?_⟩
  rcases hls l hl with rfl | ⟨bs, rfl, hbs⟩
  · rfl
  · exact decide_eq_true hbs

/-- The first line that has a property is the one a search for it finds. -/
theorem findIdx?_of_first {p : LineValue → Bool} {ls : List LineValue} {i : Nat} {l : LineValue} (hi : ls[i]? = some l)
    (hp : p l = true) (hfirst : ∀ j l', j < i → ls[j]? = some l' → p l' ≠ true) : ls.findIdx? p = some i := by
  obtain ⟨hlt, rfl⟩ := List.getElem?_eq_some_iff.mp hi
  exact List.findIdx?_eq_some_iff_getElem.mpr
    ⟨hlt, hp, fun j hj => hfirst j _ hj (List.getElem?_eq_getElem (hj.trans hlt))⟩

/-- The lowest undefined line is reported, whatever else is wrong (R105). -/
theorem assemble_of_first_undefined {ls : List LineValue} {i : Nat} (hi : ls[i]? = some .undefined)
    (hfirst : ∀ j, j < i → ls[j]? ≠ some .undefined) : assemble ls = .error ⟨.inputUndefined, i⟩ := by
  have hfind : ls.findIdx? lineUndefined = some i := findIdx?_of_first hi rfl fun j l' hj hl' hu =>
    hfirst j hj (hl'.trans (congrArg some ((lineUndefined_iff l').mp hu)))
  simp only [assemble, hfind]

/-- With every line defined, the lowest line with a set upper bit is reported (R105). -/
theorem assemble_of_first_upper {ls : List LineValue} {i : Nat} {l : LineValue} (hi : ls[i]? = some l)
    (hu : HasUpperOne l) (hdef : .undefined ∉ ls) (hfirst : ∀ j l', j < i → ls[j]? = some l' → ¬ HasUpperOne l') :
    assemble ls = .error ⟨.inputUpperBits, i⟩ := by
  have hnone : ls.findIdx? lineUndefined = none := List.findIdx?_eq_none_iff.mpr fun l' hl' =>
    eq_false_of_ne_true fun h => hdef ((lineUndefined_iff l').mp h ▸ hl')
  have hfind : ls.findIdx? lineUpperSet = some i := findIdx?_of_first hi ((lineUpperSet_iff l).mpr hu)
    fun j l' hj hl' h => hfirst j l' hj hl' ((lineUpperSet_iff l').mp h)
  simp only [assemble, hnone, hfind]

/-- Lines that assemble are all defined and without a set upper bit. -/
theorem good_of_assemble_ok {ls : List LineValue} {v : Nat} (h : assemble ls = .ok v) {l : LineValue} (hl : l ∈ ls) :
    l ≠ .undefined ∧ ¬ HasUpperOne l := by
  unfold assemble at h
  split at h
  · cases h
  · next hundef =>
    split at h
    · cases h
    · next hupper =>
      rw [← lineUpperSet_iff, ne_eq, ← lineUndefined_iff]
      exact ⟨ne_true_of_eq_false (List.findIdx?_eq_none_iff.mp hundef l hl),
        ne_true_of_eq_false (List.findIdx?_eq_none_iff.mp hupper l hl)⟩

/-- A line with a bit above bit 0 is wider than one bit. -/
theorem one_lt_of_upper {w : Nat} {l : LineValue} (hf : lineFits w l = true) (hu : lineUpperSet l = true) : 1 < w := by
  obtain ⟨b, upper, rfl, hmem⟩ := (lineUpperSet_iff l).mp hu
  have hpos := List.length_pos_of_mem hmem
  simp only [lineFits, List.length_cons, decide_eq_true_eq] at hf
  omega

/-- The faults of operands that fit: the record names one of the 8 lines, and an upper bit needs a wide line. -/
theorem assembleOperand_error {inp : LineOperand} {inst : Instance} {f : FaultRecord} (hf : linesFit inp inst = true)
    (h : assembleOperand inp inst = .error f) :
    f.info < 8 ∧ (f.code = .inputUndefined ∨ f.code = .inputUpperBits ∧ 1 < inst.wLine) := by
  cases inp with
  | word v => rw [assembleOperand_word] at h; cases h
  | lines ls =>
    simp only [linesFit, Bool.and_eq_true, decide_eq_true_eq, List.all_eq_true] at hf
    obtain ⟨hlen, hfit⟩ := hf
    rcases assemble_cases ls with h' | ⟨i, hi, h'⟩ | ⟨i, -, hi, h'⟩ <;>
      cases h.symm.trans h' <;> obtain ⟨hlt, hp, -⟩ := List.findIdx?_eq_some_iff_getElem.mp hi
    · exact ⟨hlen ▸ hlt, .inl rfl⟩
    · exact ⟨hlen ▸ hlt, .inr ⟨rfl, one_lt_of_upper (hfit _ (List.getElem_mem hlt)) hp⟩⟩

/-! ### What the two operations do with the lines -/

section Lines

variable {s : State} {inst : Instance} {inp : LineOperand} (hr : Ready s inst) (hf : linesFit inp inst = true)

include hr hf

theorem exec_eval_of_fits :
    exec (.eval inp) s = .next (s.apply inst (.ofAssembled (assembleOperand inp inst))) :=
  exec_of_ready (i := .eval inp) nofun hr ((linesFit_eq_wellFormed inp inst).symm.trans hf)

theorem exec_inAssemble_of_fits : exec (.inAssemble inp) s = .next (s.apply inst
    (.ofComputed ((assembleOperand inp inst).map fun v => .value (BitVec.ofNat 8 v)))) :=
  exec_of_ready (i := .inAssemble inp) nofun hr ((linesFit_eq_wellFormed inp inst).symm.trans hf)

theorem exec_eval_of_ok {v : Nat} (h : assembleOperand inp inst = .ok v) :
    exec (.eval inp) s = .next (s.writeCache inst (pack (convert v))) := by
  rw [exec_eval_of_fits hr hf, h]
  rfl

/-- On an error of the lines both operations take the same fault. -/
theorem exec_of_lines_error {f : FaultRecord} (h : assembleOperand inp inst = .error f) :
    exec (.eval inp) s = .next (s.raiseFault inst f) ∧ exec (.inAssemble inp) s = .next (s.raiseFault inst f) := by
  rw [exec_eval_of_fits hr hf, exec_inAssemble_of_fits hr hf, h]
  exact ⟨rfl, rfl⟩

end Lines

/-- EVAL of lines that spell a value. -/
theorem exec_eval_of_spells {s : State} {inst : Instance} {inp : LineOperand} {v : BitVec 8} (hr : Ready s inst)
    (hv : Spells inp inst.wLine v) : exec (.eval inp) s = .next (s.writeCache inst (pack (convert v.toNat))) :=
  exec_eval_of_ok hr (linesFit_of_spells hv) (assembleOperand_of_spells hv)

/-- Settles O5: lines that spell a value assemble to it. -/
theorem inAssembleReturnsValue : Obligations.InAssembleReturnsValue := by
  intro s inst inp v hr hv
  have hvalue : BitVec.ofNat 8 v.toNat = v := by simp
  rw [exec_inAssemble_of_fits hr (linesFit_of_spells hv), assembleOperand_of_spells hv, Except.map, hvalue]
  rfl

/-! ### The digits EVAL writes -/

/-- Below 1000 the hundreds digit needs no modulus. -/
theorem convert_of_lt {v : Nat} (h : v < 1000) : convert v = ⟨v % 10, v / 10 % 10, v / 100⟩ := by
  have hh : v / 10 / 10 % 10 = v / 100 := by omega
  simp only [convert, hh]

/-- Settles O11: the cells are those of the packed digits. -/
theorem evalWritesDigits : Obligations.EvalWritesDigits := by
  intro s inst inp v hr hv
  rw [exec_eval_of_spells hr hv, convert_of_lt (by omega)]
  rfl

/-- Available cells in front of others are the low bits of the number. -/
theorem numberOfCells_append {cs : List Cell} {a : Nat} (h : numberOfCells cs = some a) (ds : List Cell) :
    numberOfCells (cs ++ ds) = (numberOfCells ds).map (a + 2 ^ cs.length * ·) := by
  induction cs generalizing a with
  | nil =>
    injection h with h
    simp [← h]
  | cons c cs ih =>
    rw [numberOfCells] at h
    split at h
    · next b n hb hn =>
      injection h with h
      rw [List.cons_append, numberOfCells, ih hn, hb, ← h]
      cases numberOfCells ds with
      | none => rfl
      | some m =>
        simp only [Option.map_some, List.length_cons, Option.some.injEq]
        ring
    · cases h

/-- The output word of three packed digits, in hexadecimal (R88). -/
theorem numberOfCells_pack {d : Digits} (ho : d.ones < 16) (ht : d.tens < 16) (hh : d.hundreds < 16) :
    numberOfCells (cacheCells (pack d)) = some (d.ones + 16 * d.tens + 256 * d.hundreds) := by
  rw [cacheCells, List.append_assoc, pack_ones, pack_tens, pack_hundreds,
    numberOfCells_append (numberOfCells_nibEnc ho), numberOfCells_append (numberOfCells_nibEnc ht),
    numberOfCells_nibEnc hh]
  simp only [Option.map_some, nibbleCells_length, Config.nibW, Option.some.injEq]
  omega

/-- The bits above a digit are 0. -/
theorem digitCell_of_lt {d i : Nat} (h : d < 2 ^ i) : digitCell d i = .zero := by
  simp [digitCell, Nat.div_eq_of_lt h, cellOfBit]

/-- Settles O12: what the output lines carry of the packed digits of an 8-bit value. -/
theorem evalOutputsSpellTheNumber : Obligations.EvalOutputsSpellTheNumber := by
  intro s inst inp v hr hv
  have hlt := v.isLt
  have hsum := convert_digits_sum (v := v.toNat) (by omega)
  rw [← unpack_pack_convert] at hsum
  refine ⟨_, _, exec_eval_of_spells hr hv, writeCache_addressed s hr.1 _, ?_, ?_, ?_, hsum⟩
  · rw [convert_of_lt (by omega)]
    exact numberOfCells_pack (by dsimp only; omega) (by dsimp only; omega) (by dsimp only; omega)
  · rw [convert_of_lt (by omega)]
    exact congrArg some (digitCell_of_lt (d := v.toNat / 100) (i := 2) (by omega))
  · rw [convert_of_lt (by omega)]
    exact congrArg some (digitCell_of_lt (d := v.toNat / 100) (i := 3) (by omega))

/-- Two operations with one check and one effect on the addressed instance have the same outcome. -/
theorem exec_congr_of_addressed {i j : Instr} {s : State} {inst : Instance} (hi : i ≠ .init) (hj : j ≠ .init)
    (ha : s.addressed = some inst) (hw : i.wellFormed inst.wLine = j.wellFormed inst.wLine)
    (he : effect i s.lut inst = effect j s.lut inst) : exec i s = exec j s := by
  rw [exec_guarded hi, exec_guarded hj]
  simp only [onAddressed, ha, hw, he]

/-- Settles O13: both forms have their width and stand for the same line values. -/
theorem wordFormActsAsLineTerm : Obligations.WordFormActsAsLineTerm := by
  intro s inst v ha hw
  have hfit : (LineOperand.lines (linesOf inst.wLine v)).wellFormed inst.wLine = true :=
    (linesFit_eq_wellFormed _ inst).symm.trans (linesFit_of_spells (v := v) (.inr ⟨hw, rfl⟩))
  exact ⟨exec_congr_of_addressed nofun nofun ha hfit.symm rfl, exec_congr_of_addressed nofun nofun ha hfit.symm rfl⟩

/-! ### Faults -/

/-- Settles O14: the lines do not assemble, and both operations take the fault they answer. -/
theorem badInputTakesFaultAndKeepsCache : Obligations.BadInputTakesFaultAndKeepsCache := by
  intro s inst ls hr hls hbad
  have hf := linesFit_of_linesWide hls
  cases h : assembleOperand (.lines ls) inst with
  | ok v =>
    obtain ⟨l, hl, hb⟩ := hbad
    obtain ⟨hdef, hlow⟩ := good_of_assemble_ok h hl
    exact absurd hb (by simp [hdef, hlow])
  | error f =>
    obtain ⟨hinfo, hcode⟩ := assembleOperand_error hf h
    exact ⟨f, hcode.imp_right And.left, hinfo, exec_of_lines_error hr hf h⟩

/-- Settles O16: the two searches of `assemble`, in their order. -/
theorem inputFaultPriority : Obligations.InputFaultPriority := by
  intro s inst ls i l hr hls hi
  have hf := linesFit_of_linesWide hls
  refine And.intro (fun hl hfirst => ?_) fun hu hdef hfirst => ?_
  · subst hl
    exact (exec_of_lines_error hr hf (assemble_of_first_undefined hi hfirst)).1
  · exact (exec_of_lines_error hr hf (assemble_of_first_upper hi hu hdef hfirst)).1

/-- Settles O15: the only bad line is the first of its kind. -/
theorem singleBadLineIsReported : Obligations.SingleBadLineIsReported := by
  intro s inst ls i l hr hls hi hother
  obtain ⟨hundef, hupper⟩ := inputFaultPriority s inst ls i l hr hls hi
  refine And.intro (fun hl => hundef hl fun j hj hj' => (hother j _ hj.ne hj').1 rfl) fun hu => hupper hu ?_
    fun j l' hj hj' => (hother j l' hj.ne hj').2
  intro hmem
  obtain ⟨j, hj⟩ := List.mem_iff_getElem?.mp hmem
  by_cases hji : j = i
  · subst hji
    obtain rfl : l = .undefined := Option.some.inj (hi.symm.trans hj)
    obtain ⟨_, _, h, -⟩ := hu
    cases h
  · exact (hother j _ hji hj).1 rfl

/-- A write replaces whatever instance and result stood there. -/
theorem writeCache_withAddressed (s : State) (inst inst' : Instance) (c : Cache) :
    (s.withAddressed inst).writeCache inst' c = s.writeCache inst' c := by
  simp only [State.writeCache, State.withAddressed, List.set_set]

/-- An EVAL that did not fault wrote the value of its lines. -/
theorem exec_eval_unfaulted {s t : State} {inp : LineOperand} {inst' : Instance} (h : exec (.eval inp) s = .next t)
    (ht : Ready t inst') : ∃ inst v, Ready s inst ∧ linesFit inp inst = true ∧ assembleOperand inp inst = .ok v ∧
      inst' = { inst with cache := pack (convert v) } ∧ t = s.writeCache inst (pack (convert v)) := by
  obtain ⟨ha, hnone⟩ := ht
  obtain ⟨inst, hr, hf, ⟨v, hx, rfl⟩ | ⟨f, -, rfl⟩⟩ := exec_eval_next h
  · exact ⟨inst, v, hr, hf, hx, Option.some.inj (ha.symm.trans (writeCache_addressed s hr.1 _)), rfl⟩
  · rw [raiseFault_addressed s hr.1] at ha
    cases ha
    cases hnone

/-- Settles O17: an EVAL that did not fault writes a cache that its operand and the instance's W_LINE determine, so it writes
the same wherever only the cache differs. -/
theorem evalIsIdempotent : Obligations.EvalIsIdempotent := by
  intro s t inp inst' h ht
  obtain ⟨inst, v, hr, hf, hx, rfl, rfl⟩ := exec_eval_unfaulted h ht
  have again (c : Cache) : exec (.eval inp) (s.withAddressed { inst with cache := c }) =
      .next (s.writeCache inst (pack (convert v))) := by
    have hready : Ready (s.withAddressed { inst with cache := c }) { inst with cache := c } :=
      ⟨withAddressed_addressed s hr.1 _, hr.2⟩
    rw [exec_eval_of_ok hready hf hx, writeCache_withAddressed]
    rfl
  refine ⟨?_, again⟩
  rw [exec_eval_of_ok ht hf hx]
  exact congrArg Host.Outcome.next (writeCache_withAddressed s _ _ _)

end Sys2Proof.Machine
end

section
/-!
PROOFS. SEG_LOOKUP, SEG_TEST, NIB_ENC, NIB_DEC and RENDER (spec 41_segment_decoder.md, 42_bit_packing.md,
43_block_operations.md R89 to R92).
-/

namespace Sys2Proof.Machine

open Sys2Proof

/-! ### The segment decoder -/

/-- With the ROM intact a digit reads as its row of the table. -/
theorem read_of_displayTable {m : Memory} {d : Nat} {p : Pattern} (hm : m = []) (h : (d, p) ∈ displayTable) :
    m.read d = some p := by
  rw [hm, read_nil, (lutEntry_of_displayTable h).2]

theorem exists_mem_displayTable {d : Nat} (h : d ≤ 9) : ∃ p, (d, p) ∈ displayTable := by
  have rows : ∀ d < 10, ∃ row ∈ displayTable, row.1 = d := by decide
  obtain ⟨⟨_, p⟩, hrow, rfl⟩ := rows d (by omega)
  exact ⟨p, hrow⟩

theorem segTest_bad_digit (m : Memory) (seg : Nat) {d : Nat} (h : 9 < d) :
    segTest m seg d = .error ⟨.digitRange, d⟩ := if_pos h

theorem segTest_bad_segment (m : Memory) {seg d : Nat} (hd : d ≤ 9) (h : 6 < seg) :
    segTest m seg d = .error ⟨.segIndexRange, seg⟩ := by
  rw [segTest, if_neg (by omega), if_pos h]

theorem segTest_ok {m : Memory} {seg d : Nat} {p : Pattern} (hd : d ≤ 9) (hs : seg ≤ 6) (h : m.read d = some p) :
    segTest m seg d = .ok (p.getLsbD seg) := by
  rw [segTest, if_neg (by omega), if_neg (by omega), memRead_ok h]
  rfl

section Decoder

variable {s : State} {inst : Instance} {d : Nat} (hr : Ready s inst) (hd : d < 16)

include hr hd

theorem exec_segLookup_of_ready :
    exec (.segLookup d) s = .next (s.apply inst (.ofComputed ((segLookup s.lut d).map .pattern))) :=
  exec_of_ready (i := .segLookup d) nofun hr (decide_eq_true hd)

theorem exec_segTest_of_ready {seg : Nat} (hs : seg < 8) :
    exec (.segTest seg d) s = .next (s.apply inst (.ofComputed ((segTest s.lut seg d).map .lit))) :=
  exec_of_ready (i := .segTest seg d) nofun hr (by simp [Instr.wellFormed, hs, hd])

end Decoder

/-- Settles O18: a digit of the table is looked up there. -/
theorem segLookupReturnsTableEntry : Obligations.SegLookupReturnsTableEntry := by
  intro s inst d p hr hm hp
  have hd := (lutEntry_of_displayTable hp).1
  rw [exec_segLookup_of_ready hr (by omega), segLookup_ok hd (read_of_displayTable hm hp)]
  rfl

/-- A bit of a number, as the quotient by its weight shows it. -/
theorem getLsbD_eq_div_mod {w : Nat} (x : BitVec w) (k : Nat) : x.getLsbD k = (x.toNat / 2 ^ k % 2 == 1) := by
  rw [← BitVec.testBit_toNat, Nat.testBit_eq_decide_div_mod_eq]
  rfl

/-- Settles O19: the bit of the table's entry. -/
theorem segTestReturnsTableBit : Obligations.SegTestReturnsTableBit := by
  intro s inst seg d p hr hm hs hp
  have hd := (lutEntry_of_displayTable hp).1
  rw [exec_segTest_of_ready hr (by omega) (by omega), segTest_ok hd hs (read_of_displayTable hm hp),
    getLsbD_eq_div_mod]
  rfl

/-- The ROM has one entry for 0 and 8, so no segment tells them apart (R73). -/
theorem segTest_eight_eq_zero (seg : Nat) : segTest [] seg 8 = segTest [] seg 0 := rfl

/-- Settles O20: rows 0 and 8 of the table. -/
theorem digitEightLooksLikeZero : Obligations.DigitEightLooksLikeZero := by
  intro s inst hr hm
  have lookup (d : Nat) := segLookupReturnsTableEntry s inst d 0x3F hr hm
  refine ⟨lookup 8 (by decide), (lookup 8 (by decide)).trans (lookup 0 (by decide)).symm, fun seg => ?_,
    segTestReturnsTableBit s inst 6 8 0x3F hr hm (by decide) (by decide)⟩
  refine exec_congr_of_addressed nofun nofun hr.1 rfl ?_
  rw [effect, effect, show s.lut = [] from hm, segTest_eight_eq_zero]

/-- Settles O21: the digit is checked first in both operations. -/
theorem digitAboveNineFaults : Obligations.DigitAboveNineFaults := by
  intro s inst d hr hlo hhi
  refine And.intro ?_ fun seg hs => ?_
  · rw [exec_segLookup_of_ready hr (by omega), segLookup_bad _ (by omega)]
    rfl
  · rw [exec_segTest_of_ready hr (by omega) (by omega), segTest_bad_digit _ _ (by omega)]
    rfl

/-- Settles O22: the segment index is looked at only behind a digit 0 to 9. -/
theorem segmentIndexSevenFaults : Obligations.SegmentIndexSevenFaults := by
  intro s inst d hr hd
  rw [exec_segTest_of_ready hr (by omega) (by omega)]
  by_cases h : d ≤ 9
  · rw [segTest_bad_segment _ h (by omega), if_pos h]
    rfl
  · rw [segTest_bad_digit _ _ (by omega), if_neg h]
    rfl

/-! ### Nibbles -/

theorem exec_nibEnc_of_ready {s : State} {inst : Instance} {d : Nat} (hr : Ready s inst) (hd : d < 16) :
    exec (.nibEnc d) s = .next (s.answer (.nibble (nibEnc d))) :=
  exec_of_ready (i := .nibEnc d) nofun hr (decide_eq_true hd)

theorem exec_nibDec_of_ready {s : State} {inst : Instance} (b : Nibble) (hr : Ready s inst) :
    exec (.nibDec b) s = .next (s.answer (.digit (BitVec.ofNat 4 (nibDec b)))) :=
  exec_of_ready (i := .nibDec b) nofun hr rfl

theorem digitCell_eq_testBit (d i : Nat) : digitCell d i = if d.testBit i then .one else .zero := by
  rw [digitCell, cellOfBit, Nat.testBit_eq_decide_div_mod_eq]

/-- The four cells of a digit, bit by bit. -/
theorem nibEnc_eq_testBit (d : Nat) : nibEnc d =
    ⟨if d.testBit 0 then .one else .zero, if d.testBit 1 then .one else .zero, if d.testBit 2 then .one else .zero,
      if d.testBit 3 then .one else .zero⟩ := by
  simp only [nibEnc, digitCell_eq_testBit]

/-- Settles O23: the cells NIB_ENC returns, bit by bit. -/
theorem nibEncReturnsBits : Obligations.NibEncReturnsBits := by
  intro s inst d hr hd
  rw [exec_nibEnc_of_ready hr (by omega), nibEnc_eq_testBit]
  rfl

/-- One unavailable cell makes the whole number unavailable. -/
theorem numberOfCells_of_na {cs : List Cell} (h : Cell.na ∈ cs) : numberOfCells cs = none := by
  induction cs with
  | nil => cases h
  | cons c cs ih =>
    rcases List.mem_cons.mp h with rfl | hmem
    · rfl
    · rw [numberOfCells, ih hmem]
      cases bitOfCell c <;> rfl

theorem nibDec_of_na {b : Nibble} (h : b.b0 = .na ∨ b.b1 = .na ∨ b.b2 = .na ∨ b.b3 = .na) : nibDec b = 0 := by
  have hmem : Cell.na ∈ nibbleCells b := by simpa [nibbleCells, eq_comm] using h
  rw [nibDec, numberOfCells_of_na hmem, Option.getD_none]

/-- Settles O24: the tag is the word's top field, and a nibble of bits is the encoding of its number. -/
theorem nibDecReturnsDigit : Obligations.NibDecReturnsDigit := by
  refine And.intro (fun b => ⟨_, rfl, ?_⟩) fun s inst b hr => And.intro (fun hna => ?_) fun x hx => ?_
  · rw [wordOf_toNat (by decide) (encodeCells_lt b)]
    have := encodeCells_lt b
    omega
  · rw [exec_nibDec_of_ready b hr, nibDec_of_na hna]
    rfl
  · simp only [← BitVec.testBit_toNat, ← nibEnc_eq_testBit] at hx
    rw [exec_nibDec_of_ready b hr, hx, nibDec_nibEnc x.isLt, BitVec.ofNat_toNat, BitVec.setWidth_eq]
    rfl

/-- Settles O25: the bits that come back are the digit's encoding. -/
theorem nibbleRoundTripReturnsDigit : Obligations.NibbleRoundTripReturnsDigit := by
  intro s inst d hr hd
  refine ⟨nibEnc d, _, exec_nibEnc_of_ready hr (by omega), rfl, ?_⟩
  have hr' : Ready (s.answer (.nibble (nibEnc d))) inst := hr
  rw [exec_nibDec_of_ready _ hr', nibDec_nibEnc (by omega)]
  rfl

/-! ### RENDER -/

theorem exec_render_of_ready {s : State} {inst : Instance} (hr : Ready s inst) :
    exec .render s = .next (s.apply inst (.ofComputed (renderPatterns s.lut inst.cache))) :=
  exec_of_ready (i := .render) nofun hr rfl

/-- RENDER shows the rows of the table of the three digits. -/
theorem exec_render_of_rows {s : State} {inst : Instance} {p0 p1 p2 : Pattern} (hr : Ready s inst) (hm : LutIntact s)
    (h0 : ((unpack inst.cache).ones, p0) ∈ displayTable) (h1 : ((unpack inst.cache).tens, p1) ∈ displayTable)
    (h2 : ((unpack inst.cache).hundreds, p2) ∈ displayTable) :
    exec .render s = .next (s.answer (.patterns p0 p1 p2)) := by
  rw [exec_render_of_ready hr, renderPatterns_ok (lutEntry_of_displayTable h0).1 (lutEntry_of_displayTable h1).1
    (lutEntry_of_displayTable h2).1 (read_of_displayTable hm h0) (read_of_displayTable hm h1)
    (read_of_displayTable hm h2)]
  rfl

/-- Every position of a legal cache decodes to a decimal digit. -/
theorem unpack_le_nine {c : Cache} (h : CacheLegal c) :
    (unpack c).ones ≤ 9 ∧ (unpack c).tens ≤ 9 ∧ (unpack c).hundreds ≤ 9 := by
  rcases h with rfl | ⟨v, -, rfl⟩
  · decide
  · rw [unpack_pack_convert]
    exact ⟨convert_ones_le_nine v, convert_tens_le_nine v, convert_hundreds_le_nine v⟩

/-- Settles O26: every digit of a legal cache has its row. -/
theorem renderReturnsPatterns : Obligations.RenderReturnsPatterns := by
  intro s inst hr hm hc
  obtain ⟨h0, h1, h2⟩ := unpack_le_nine hc
  obtain ⟨p0, hp0⟩ := exists_mem_displayTable h0
  obtain ⟨p1, hp1⟩ := exists_mem_displayTable h1
  obtain ⟨p2, hp2⟩ := exists_mem_displayTable h2
  exact ⟨p0, p1, p2, hp0, hp1, hp2, exec_render_of_rows hr hm hp0 hp1 hp2⟩

/-- Settles O27: the cells of a fresh cache decode to 0. -/
theorem renderBeforeEvalShowsZeros : Obligations.RenderBeforeEvalShowsZeros := by
  intro s inst hr hm hc
  have zero : (0, 0x3F) ∈ displayTable := by decide
  refine ⟨read_of_displayTable hm zero, ?_⟩
  refine exec_render_of_rows hr hm ?_ ?_ ?_ <;> rw [hc] <;> exact zero

/-- Settles O28: RENDER decodes the digits that EVAL packed. -/
theorem renderAfterEvalShowsValue : Obligations.RenderAfterEvalShowsValue := by
  intro s inst v p0 p1 p2 hr hm h0 h1 h2
  refine ⟨_, exec_eval_of_spells hr (.inl rfl), ?_⟩
  have hr' : Ready (s.writeCache inst (pack (convert v.toNat))) { inst with cache := pack (convert v.toNat) } :=
    ⟨writeCache_addressed s hr.1 _, hr.2⟩
  have hdigits : unpack (pack (convert v.toNat)) = ⟨v.toNat % 10, v.toNat / 10 % 10, v.toNat / 100⟩ := by
    rw [unpack_pack_convert, convert_of_lt (by omega)]
  exact exec_render_of_rows hr' hm (by rw [hdigits]; exact h0) (by rw [hdigits]; exact h1) (by rw [hdigits]; exact h2)

/-- Settles O29: the three checks of `renderPatterns`, in their order. -/
theorem renderReportsLowestBadPosition : Obligations.RenderReportsLowestBadPosition := by
  intro s inst p hr h
  have hbad : renderPatterns s.lut inst.cache = .error ⟨.digitRange, p⟩ := by
    rcases h with ⟨h0, rfl⟩ | ⟨h0, h1, rfl⟩ | ⟨h0, h1, h2, rfl⟩
    · exact if_pos h0
    · exact (if_neg (Nat.not_lt.mpr h0)).trans (if_pos h1)
    · exact (if_neg (Nat.not_lt.mpr h0)).trans ((if_neg (Nat.not_lt.mpr h1)).trans (if_pos h2))
  rw [exec_render_of_ready hr, hbad]
  rfl

/-- The state with `n` renders pending on its own target, the last operation having returned `r`. -/
def State.rendering (s : State) (n : Nat) (r : Option Result) : State :=
  { s with requests := List.replicate n ⟨s.target, s.wiring, .term .render⟩, returned := r }

/-- One of several pending renders. -/
theorem step_rendering {s : State} {inst : Instance} {p0 p1 p2 : Pattern} (hr : Ready s inst) (hm : LutIntact s)
    (h0 : ((unpack inst.cache).ones, p0) ∈ displayTable) (h1 : ((unpack inst.cache).tens, p1) ∈ displayTable)
    (h2 : ((unpack inst.cache).hundreds, p2) ∈ displayTable) (n : Nat) (r : Option Result) :
    step (s.rendering (n + 1) r) = .next (s.rendering n (some (.patterns p0 p1 p2))) :=
  exec_render_of_rows (s := s.rendering n r) hr hm h0 h1 h2

/-- Settles O30, by induction on the number of renders: each leads to a state in which the next is performed alike. -/
theorem repeatedRendersAgree : Obligations.RepeatedRendersAgree := by
  intro s inst hr hm hc
  obtain ⟨p0, p1, p2, h0, h1, h2, -⟩ := renderReturnsPatterns s inst hr hm hc
  have hstep := step_rendering hr hm h0 h1 h2
  have hrun (n : Nat) : ∀ r, Host.Core.run core (n + 1) (s.rendering (n + 1) r) =
      .next (s.rendering 0 (some (.patterns p0 p1 p2))) := by
    induction n with
    | zero => exact fun r => core_run_of_next (hstep 0 r) 0
    | succ n ih => exact fun r => (core_run_of_next (hstep (n + 1) r) (n + 1)).trans (ih _)
  exact ⟨p0, p1, p2, fun n => hrun n s.returned⟩

end Sys2Proof.Machine
end

section
/-!
PROOFS. The machine's invariant: it holds at reset, every operation and every step keeps it, and under it the block
operations never fault (spec 10_state.md R18, R29, R31, 43_block_operations.md R89, 60_exceptions.md R97).
-/

namespace Sys2Proof.Machine

open Sys2Proof

/-! ### Legal instances -/

theorem fresh_legal {w : Nat} (h : 1 ≤ w) : InstanceLegal (Instance.fresh w) := ⟨h, .inl rfl, nofun⟩

/-- A legal cache renders. -/
theorem renderPatterns_of_legal (m : Memory) {c : Cache} (h : CacheLegal c) :
    ∃ p0 p1 p2, renderPatterns m c = .ok (.patterns p0 p1 p2) := by
  obtain ⟨h0, h1, h2⟩ := unpack_le_nine h
  obtain ⟨p0, r0⟩ := read_mapped m h0
  obtain ⟨p1, r1⟩ := read_mapped m h1
  obtain ⟨p2, r2⟩ := read_mapped m h2
  exact ⟨p0, p1, p2, renderPatterns_ok h0 h1 h2 r0 r1 r2⟩

/-- The one fault of a lookup. -/
theorem segLookup_error {m : Memory} {d : Nat} {f : FaultRecord} (h : segLookup m d = .error f) :
    9 < d ∧ f = ⟨.digitRange, d⟩ := by
  by_cases hd : 9 < d
  · rw [segLookup_bad m hd] at h
    injection h with h
    exact ⟨hd, h.symm⟩
  · obtain ⟨p, hp⟩ := read_mapped m (d := d) (by omega)
    rw [segLookup_ok (by omega) hp] at h
    cases h

/-- The two faults of a segment test. -/
theorem segTest_error {m : Memory} {seg d : Nat} {f : FaultRecord} (h : segTest m seg d = .error f) :
    9 < d ∧ f = ⟨.digitRange, d⟩ ∨ 6 < seg ∧ f = ⟨.segIndexRange, seg⟩ := by
  by_cases hd : 9 < d
  · rw [segTest_bad_digit m seg hd] at h
    injection h with h
    exact .inl ⟨hd, h.symm⟩
  by_cases hs : 6 < seg
  · rw [segTest_bad_segment m (by omega) hs] at h
    injection h with h
    exact .inr ⟨hs, h.symm⟩
  · obtain ⟨p, hp⟩ := read_mapped m (d := d) (by omega)
    rw [segTest_ok (by omega) (by omega) hp] at h
    cases h

theorem assembleOperand_error_legal {inp : LineOperand} {inst : Instance} {f : FaultRecord}
    (hw : inp.wellFormed inst.wLine = true) (h : assembleOperand inp inst = .error f) : FaultLegal inst.wLine f := by
  obtain ⟨hinfo, hcode⟩ := assembleOperand_error ((linesFit_eq_wellFormed inp inst).trans hw) h
  rcases hcode with hc | ⟨hc, hwide⟩ <;> simp only [FaultLegal, hc]
  · exact hinfo
  · exact ⟨hinfo, hwide⟩

theorem ofComputed_eq_fault {x : Except FaultRecord Result} {f : FaultRecord} (h : Effect.ofComputed x = .fault f) :
    x = .error f := by
  cases x <;> cases h
  rfl

theorem map_eq_error {α β : Type} {g : α → β} {x : Except FaultRecord α} {f : FaultRecord}
    (h : x.map g = .error f) : x = .error f := by
  cases x <;> cases h
  rfl

/-- The faults an operation of the right width can take on a legal cache. -/
theorem effect_fault_legal {i : Instr} {m : Memory} {inst : Instance} {f : FaultRecord}
    (hw : i.wellFormed inst.wLine = true) (hc : CacheLegal inst.cache) (h : effect i m inst = .fault f) :
    FaultLegal inst.wLine f := by
  cases i with
  | init | convert | nibEnc | nibDec => cases h
  | eval inp =>
    rw [effect] at h
    cases hx : assembleOperand inp inst with
    | ok v => rw [hx] at h; cases h
    | error g =>
      rw [hx] at h
      cases h
      exact assembleOperand_error_legal hw hx
  | inAssemble inp => exact assembleOperand_error_legal hw (map_eq_error (ofComputed_eq_fault h))
  | render =>
    obtain ⟨p0, p1, p2, hp⟩ := renderPatterns_of_legal m hc
    rw [effect, hp] at h
    cases h
  | segLookup d =>
    obtain ⟨hd, rfl⟩ := segLookup_error (map_eq_error (ofComputed_eq_fault h))
    simp only [Instr.wellFormed, decide_eq_true_eq] at hw
    exact ⟨hd, by dsimp only; omega⟩
  | segTest seg d =>
    simp only [Instr.wellFormed, Bool.and_eq_true, decide_eq_true_eq] at hw
    rcases segTest_error (map_eq_error (ofComputed_eq_fault h)) with ⟨hd, rfl⟩ | ⟨hs, rfl⟩
    · exact ⟨hd, by dsimp only; omega⟩
    · simp only [FaultLegal]
      omega

/-- An operation of the right width leaves a legal, unfaulted instance legal. -/
theorem instanceLegal_on {i : Instr} {m : Memory} {inst : Instance} (hi : InstanceLegal inst)
    (hw : i.wellFormed inst.wLine = true) : InstanceLegal ((effect i m inst).on inst) := by
  cases he : effect i m inst with
  | cache c =>
    obtain ⟨inp, v, rfl, hx, rfl⟩ := effect_eq_cache he
    have hv := assembleOperand_lt ((linesFit_eq_wellFormed inp inst).trans hw) hx
    exact ⟨hi.wLine, .inr ⟨v, hv, rfl⟩, hi.fault⟩
  | fault f =>
    refine ⟨hi.wLine, hi.cache, fun g hg => ?_⟩
    cases hg
    exact effect_fault_legal hw hi.cache he
  | result r => exact hi

/-! ### The invariant -/

/-- Every operation keeps the invariant. -/
theorem exec_keeps_legal {i : Instr} {s t : State} (hs : Legal s) (h : exec i s = .next t) : Legal t := by
  refine ⟨(exec_lut h).trans hs.lut, fun inst hmem => ?_⟩
  by_cases hi : i = .init
  · subst hi
    obtain ⟨hw, rfl⟩ := exec_init_next h
    rcases List.mem_append.mp hmem with hold | hnew
    · exact hs.instances inst hold
    · rw [List.mem_singleton.mp hnew]
      exact fresh_legal ((wiringOk_iff _).mp hw).1
  · obtain ⟨a, hr, hw, rfl⟩ := exec_next_effect hi h
    rw [apply_instances _ hr.1] at hmem
    rcases List.mem_or_eq_of_mem_set hmem with hold | rfl
    · exact hs.instances inst hold
    · exact instanceLegal_on (hs.instances a (List.mem_of_getElem? hr.1)) hw

/-- Settles O46: a step idles or performs an operation on the same instances and ROM. -/
theorem stepKeepsLegal : Obligations.StepKeepsLegal := by
  intro s t hs h
  rcases step_next h with ⟨-, rfl⟩ | ⟨r, rest, i, -, -, he⟩
  · exact hs
  · exact exec_keeps_legal (s := s.present r rest) ⟨hs.lut, hs.instances⟩ he

theorem resetWith_legal {w : Nat} (h : 1 ≤ w) : Legal (State.resetWith w) := by
  refine ⟨rfl, fun inst hmem => ?_⟩
  rw [List.mem_singleton.mp hmem]
  exact fresh_legal h

/-- Settles O47: one fresh instance and nothing listed. -/
theorem resetIsLegal : Obligations.ResetIsLegal := ⟨fun _ => resetWith_legal, resetWith_legal (by decide)⟩

/-- On a ready, legal instance an operation whose effect is not a fault completes and keeps the state unfaulted and legal. -/
theorem exec_unfaulted {i : Instr} {s : State} {inst : Instance} (hi : i ≠ .init) (hs : Legal s) (hu : Unfaulted s)
    (hr : Ready s inst) (hw : i.wellFormed inst.wLine = true) (hf : ∀ f, effect i s.lut inst ≠ .fault f) :
    ∃ t, exec i s = .next t ∧ Unfaulted t ∧ Legal t := by
  have h := exec_of_ready hi hr hw
  refine ⟨_, h, fun a hmem => ?_, exec_keeps_legal hs h⟩
  rw [apply_instances _ hr.1] at hmem
  rcases List.mem_or_eq_of_mem_set hmem with hold | rfl
  · exact hu a hold
  · cases he : effect i s.lut inst with
    | cache c => exact hr.2
    | fault f => exact absurd he (hf f)
    | result r => exact hr.2

/-- Settles O50: the effects of these operations on a legal instance are none of them faults. -/
theorem blockOperationsNeverFault : Obligations.BlockOperationsNeverFault := by
  intro i s hs hu hlt hop
  have ha : s.addressed = some s.instances[s.target] := List.getElem?_eq_getElem hlt
  have hmem := List.mem_of_getElem? ha
  have hr : Ready s s.instances[s.target] := ⟨ha, hu _ hmem⟩
  have word (v : BitVec 8) := assembleOperand_word s.instances[s.target] v
  rcases hop with rfl | ⟨v, rfl⟩ | ⟨v, rfl⟩ | ⟨v, hv, rfl⟩ | ⟨d, hd, rfl⟩ | ⟨b, rfl⟩
  · obtain ⟨p0, p1, p2, hp⟩ := renderPatterns_of_legal s.lut (hs.instances _ hmem).cache
    exact exec_unfaulted nofun hs hu hr rfl fun f => by rw [effect, hp]; exact nofun
  · exact exec_unfaulted nofun hs hu hr rfl fun f => by rw [effect, word]; exact nofun
  · exact exec_unfaulted nofun hs hu hr rfl fun f => by rw [effect, word]; exact nofun
  · exact exec_unfaulted nofun hs hu hr (decide_eq_true (by omega)) nofun
  · exact exec_unfaulted nofun hs hu hr (decide_eq_true (by omega)) nofun
  · exact exec_unfaulted nofun hs hu hr rfl nofun

end Sys2Proof.Machine
end

section
/-!
PROOFS. Reset, INIT and CONVERT (spec 10_state.md R31, 43_block_operations.md R85, 40_bcd_converter.md R64 to R69).
-/

namespace Sys2Proof.Machine

open Sys2Proof

/-! ### Reset and INIT -/

/-- The digit 0 lights segments a to f. -/
theorem segTest_zero {seg : Nat} (h : seg < 7) : segTest [] seg 0 = .ok (decide (seg < 6)) := by
  rw [segTest_ok (p := 0x3F) (by omega) (by omega) rfl]
  revert seg
  decide

theorem instanceDigit_fresh (w : Nat) (p : Position) : instanceDigit (Instance.fresh w) p = 0 := by
  cases p <;> rfl

/-- Settles O1: the fresh instance that reset holds. -/
theorem resetLeavesOneFreshInstance : Obligations.ResetLeavesOneFreshInstance := by
  intro w
  refine ⟨Instance.fresh w, rfl, rfl, rfl, fun k hk => ?_, rfl, instanceDigit_fresh w, fun p seg hseg => ?_, rfl, rfl⟩
  · interval_cases k <;> rfl
  · rw [segmentSignal, instanceDigit_fresh]
    exact segTest_zero hseg

/-- Settles O2: such a wiring is accepted. -/
theorem initConstructsFreshInstance : Obligations.InitConstructsFreshInstance := by
  intro s hw hin
  exact exec_init_of_wiringOk ((wiringOk_iff s.wiring).mpr ⟨hw, hin⟩)

/-- Settles O3: both causes contradict what an accepted wiring says. -/
theorem initRefusesWidthMismatch : Obligations.InitRefusesWidthMismatch := by
  intro s h
  refine if_neg fun hok => ?_
  obtain ⟨hw, hin⟩ := (wiringOk_iff s.wiring).mp hok
  rcases h with h0 | ⟨n, hn, hne⟩
  · omega
  · exact hne (hin n hn)

theorem wiringOk_uniform {w : Nat} (h : 1 ≤ w) : wiringOk (Wiring.uniform w) = true :=
  (wiringOk_iff _).mpr ⟨h, fun n hn => by simpa [Wiring.uniform] using hn⟩

/-- Settles O4: uniform wiring is accepted, and the fresh instance is the first. -/
theorem initFromNothingIsReset : Obligations.InitFromNothingIsReset := by
  intro w hw
  exact ⟨_, exec_init_of_wiringOk (wiringOk_uniform hw), rfl⟩

/-! ### CONVERT -/

/-- Settles O6: below 1000 the digits are those of R64. -/
theorem convertReturnsDigits : Obligations.ConvertReturnsDigits := by
  intro s inst v hr hv
  rw [exec_convert_of_ready hr hv, convert_of_lt (by omega)]
  rfl

/-- The conversion keeps the low three decimal digits (R66). -/
theorem convert_mod_thousand (v : Nat) : convert v = convert (v % 1000) := by
  simp only [convert, Digits.mk.injEq]
  omega

/-- Settles O8: the low digits for every natural, and the width check of `widthRefusedExactlyWhenIllFormed` above 255. -/
theorem convertKeepsLowThreeDigits : Obligations.ConvertKeepsLowThreeDigits := by
  refine And.intro (fun v => ⟨convert_mod_thousand v, ?_⟩) fun s inst v ha hv => ?_
  · rw [convert_hundreds, Nat.div_div_eq_div_mul]
  · exact (widthRefusedExactlyWhenIllFormed (.convert v) s inst ha).mpr (decide_eq_false (by omega))

/-- The multiply-and-shift quotients of R69. -/
theorem reciprocal_ten {v : Nat} (h : v < 256) : v * 205 / 2 ^ 11 = v / 10 := by omega

theorem reciprocal_hundred {v : Nat} (h : v < 256) : v * 41 / 2 ^ 12 = v / 100 := by omega

/-- Settles O9: with the digits read back from their 4 bits, the bounds and the divider are arithmetic on `v`. -/
theorem reciprocalDividerConforms : Obligations.ReciprocalDividerConforms := by
  intro s inst v hr hv
  refine ⟨_, _, _, exec_convert_of_ready hr hv, ?_⟩
  rw [← BitVec.toNat_inj, ← BitVec.toNat_inj, toNat_ofNat_digit (convert_ones_le_nine v),
    toNat_ofNat_digit (convert_tens_le_nine v), toNat_ofNat_digit (convert_hundreds_le_nine v), convert_of_lt (by omega)]
  dsimp only
  rw [reciprocal_ten (by omega), reciprocal_hundred (by omega)]
  have two : (2 : BitVec 4).toNat = 2 := rfl
  have five : (5 : BitVec 4).toNat = 5 := rfl
  omega

end Sys2Proof.Machine
end
